-- ==== Sys2Proof/Word.lean ====
section
/-! DEFINITION. The value types of CRC32-CORE. Every value of the spec is unsigned and is numbered from bit 0, the least
significant (00_scope.md R7), so each is a bit vector of exactly the width the spec gives it; the operators of R8 are
the bit vector operators of the same shape (`^^^`, `&&&`, `|||`, the wrapping `<<<`, and `++` for `{x, y}`). -/

namespace Sys2Proof

/-- A 32-bit value: the accumulator, an input word, a response (R6 `W`, R7, R14). -/
abbrev Word := BitVec 32

/-- A byte, 0 to 255 (R10). -/
abbrev Byte := BitVec 8

/-- A command word: `op` in bits 35:32 and `data` in bits 31:0 (R35). Every command has this one length (R44). -/
abbrev Command := BitVec 36

end Sys2Proof
end

