-- ==== Sys2Proof/Syntax.lean ====
section
/-! DEFINITION. The command set (30_encoding.md R35 to R41): one constructor of `Instr` per row of the opcode table, each
operand at exactly the width its format gives it, so that every term of `Instr` is a command the block has. Beside it,
the assembler's source lines (R45, R46), whose operands are plain numbers that may be out of range. -/

namespace Sys2Proof

/-- The seven commands by name (R41). -/
inductive Mnemonic where
  | read
  | seed
  | load
  | word
  | byte
  | finish
  | stat
  deriving DecidableEq, Repr

/-- The three command formats (R37, R38, R39). -/
inductive Format where
  /-- No operand: `data` must be 0 (R37). -/
  | n
  /-- Word operand: `imm32 = data[31:0]`, every value legal (R38). -/
  | w
  /-- Byte operand: `imm8 = data[7:0]`, `data[31:8]` must be 0 (R39). -/
  | b
  deriving DecidableEq, Repr

/-- The format column of the opcode map (R41). -/
def Mnemonic.format : Mnemonic → Format
  | .read => .n
  | .seed => .n
  | .load => .w
  | .word => .w
  | .byte => .b
  | .finish => .n
  | .stat => .n

/-- One command (R41), with its operand (R40: taken without extension, scaling or byte swapping). -/
inductive Instr where
  /-- READ, format N: read the accumulator (R70). -/
  | read
  /-- SEED, format N: start a stream (R58). -/
  | seed
  /-- LOAD, format W: set the accumulator (R53). -/
  | load (imm32 : BitVec 32)
  /-- WORD, format W: feed one word through the transform (R54). -/
  | word (imm32 : BitVec 32)
  /-- BYTE, format B: feed one byte to the assembler (R59). -/
  | byte (imm8 : BitVec 8)
  /-- FINISH, format N: apply the zero-padded tail and end the stream (R60). -/
  | finish
  /-- STAT, format N: read the assembler status (R71). -/
  | stat
  deriving DecidableEq, Repr

/-- The row of the opcode table a command belongs to. -/
def Instr.mnemonic : Instr → Mnemonic
  | .read => .read
  | .seed => .seed
  | .load _ => .load
  | .word _ => .word
  | .byte _ => .byte
  | .finish => .finish
  | .stat => .stat

/-- What may stand at the head of an assembler line: a command's mnemonic (R45) or a pseudo-command (R46). -/
inductive SourceName where
  | command (m : Mnemonic)
  | xform
  | wordle
  | stream
  deriving DecidableEq, Repr

/-- An assembler line as written: a name and its operands, not yet checked (R45, R46). -/
structure SourceLine where
  name : SourceName
  operands : List Nat
  deriving DecidableEq, Repr

end Sys2Proof
end

