-- ==== Sys2Proof/WellFormed.lean ====
section
/-! DEFINITION. What is well formed, before any meaning. An `Instr` carries its operand at the exact width of its format,
so nothing about it can be ill formed (R38 "every value is legal", R39). What can be ill formed is a 36-bit command
word (R43) and an assembler line (R45) (assumption 13, DESIGN CHOICE, safe); both checks are written here from those rules, independently of the decoder. -/

namespace Sys2Proof

/-- The command word's `op` is one of the seven assigned ones: 0x7 to 0xF are reserved (R43, RF1 of R76). -/
def Command.opAssigned (w : Command) : Bool :=
  decide ((w >>> 32).toNat < 7)

/-- The data bits the word's format does not use are 0 (R43, RF2 of R76): all of `data` for ops 0x0, 0x1, 0x5 and 0x6,
bits 31:8 for op 0x4. Says nothing of ops that have no format. -/
def Command.reservedDataZero (w : Command) : Bool :=
  match (w >>> 32).toNat with
  | 0 | 1 | 5 | 6 => decide (w.toNat % 2 ^ 32 = 0)
  | 4 => decide (w.toNat % 2 ^ 32 < 2 ^ 8)
  | _ => true

/-- A command word that is none of the reserved and illegal encodings of R43. -/
def Command.wellFormed (w : Command) : Bool :=
  w.opAssigned && w.reservedDataZero

/-- How many operands a line takes (R45, R46): none for READ, SEED, FINISH and STAT, one for LOAD, WORD and BYTE, two for
XFORM, four for WORDLE, any number for STREAM. -/
def SourceLine.countOk (l : SourceLine) : Bool :=
  match l.name with
  | .command m =>
    match m.format with
    | .n => l.operands.length == 0
    | .w => l.operands.length == 1
    | .b => l.operands.length == 1
  | .xform => l.operands.length == 2
  | .wordle => l.operands.length == 4
  | .stream => true

/-- The bound below which each operand of a line must lie (R45): 2^32 for a word operand, 256 for a byte operand. -/
def SourceName.operandBound : SourceName → Nat
  | .command m =>
    match m.format with
    | .n => 0
    | .w => 2 ^ 32
    | .b => 2 ^ 8
  | .xform => 2 ^ 32
  | .wordle => 2 ^ 8
  | .stream => 2 ^ 8

/-- Every operand is in range: an out-of-range operand is an assembly error (R45). -/
def SourceLine.rangeOk (l : SourceLine) : Bool :=
  l.operands.all (fun x => decide (x < l.name.operandBound))

/-- A line the assembler encodes (R45, R46). -/
def SourceLine.wellFormed (l : SourceLine) : Bool :=
  l.countOk && l.rangeOk

end Sys2Proof
end

