-- ==== Sys2Proof/Decode.lean ====
section
/-! DEFINITION. Decoding of command words, total over all 2^36 of them (30_encoding.md R42), the encoder written from the
same opcode map (R41, R45), and the opcode map itself as rows of match and mask bits (R41). -/

namespace Sys2Proof

/-- The `op` field, bits 35:32 (R35). -/
def Command.op (w : Command) : BitVec 4 :=
  w.extractLsb' 32 4

/-- The `data` field, bits 31:0 (R35). -/
def Command.data (w : Command) : BitVec 32 :=
  w.extractLsb' 0 32

/-- Why the decoder refuses a command word (R42, R76). -/
inductive Reject where
  /-- RF1: `op` is 0x7 to 0xF. -/
  | reservedOp
  /-- RF2: a data bit that the format does not use is set. -/
  | nonzeroReservedData
  deriving DecidableEq, Repr

/-- The op column of the opcode map (R41). -/
def Mnemonic.opcode : Mnemonic → BitVec 4
  | .read => 0x0#4
  | .seed => 0x1#4
  | .load => 0x2#4
  | .word => 0x3#4
  | .byte => 0x4#4
  | .finish => 0x5#4
  | .stat => 0x6#4

/-- The opcode map read from the op (R41); none for the reserved ops 0x7 to 0xF. -/
def mnemonicOfOp (op : BitVec 4) : Option Mnemonic :=
  match op.toNat with
  | 0x0 => some .read
  | 0x1 => some .seed
  | 0x2 => some .load
  | 0x3 => some .word
  | 0x4 => some .byte
  | 0x5 => some .finish
  | 0x6 => some .stat
  | _ => none

/-- Format N (R37): the operandless command `i`, or none when `data` is not 0. -/
def formatN (i : Instr) (data : BitVec 32) : Option Instr :=
  if data = 0#32 then some i else none

/-- Format B (R39): the byte operand `data[7:0]`, or none when `data[31:8]` is not 0. -/
def formatB (data : BitVec 32) : Option Instr :=
  if data.extractLsb' 8 24 = 0#24 then some (.byte (data.extractLsb' 0 8)) else none

/-- The command of a known op with its data field (R37 to R40); none where the format's unused data bits are not 0. -/
def instrOfData (m : Mnemonic) (data : BitVec 32) : Option Instr :=
  match m with
  | .read => formatN .read data
  | .seed => formatN .seed data
  | .load => some (.load data)
  | .word => some (.word data)
  | .byte => formatB data
  | .finish => formatN .finish data
  | .stat => formatN .stat data

/-- `decode(cmd)` of R42: RF1 is checked before RF2 (R77), and every command word has exactly one outcome. -/
def decode (w : Command) : Except Reject Instr :=
  match mnemonicOfOp w.op with
  | none => .error .reservedOp
  | some m =>
    match instrOfData m w.data with
    | none => .error .nonzeroReservedData
    | some i => .ok i

/-- The data field of a command (R37 to R39): 0, the word, or the byte zero-extended. -/
def Instr.data : Instr → BitVec 32
  | .read => 0#32
  | .seed => 0#32
  | .load imm32 => imm32
  | .word imm32 => imm32
  | .byte imm8 => imm8.setWidth 32
  | .finish => 0#32
  | .stat => 0#32

/-- The command word of a command: `{op, data}` (R35), that is `op << 32 | data` (R45). -/
def encode (i : Instr) : Command :=
  i.mnemonic.opcode ++ i.data

/-- A row of the opcode map: a command word belongs to it when `(cmd & mask) = code` (R41; the spec's column is named
`match`). -/
structure OpcodeRow where
  mnemonic : Mnemonic
  code : Command
  mask : Command
  deriving DecidableEq, Repr

/-- The opcode map of R41, in its order. -/
def opcodeTable : List OpcodeRow :=
  [ ⟨.read,   0x000000000#36, 0xFFFFFFFFF#36⟩,
    ⟨.seed,   0x100000000#36, 0xFFFFFFFFF#36⟩,
    ⟨.load,   0x200000000#36, 0xF00000000#36⟩,
    ⟨.word,   0x300000000#36, 0xF00000000#36⟩,
    ⟨.byte,   0x400000000#36, 0xFFFFFFF00#36⟩,
    ⟨.finish, 0x500000000#36, 0xFFFFFFFFF#36⟩,
    ⟨.stat,   0x600000000#36, 0xFFFFFFFFF#36⟩ ]

/-- The command word matches the row (R41). -/
abbrev OpcodeRow.covers (r : OpcodeRow) (w : Command) : Prop :=
  w &&& r.mask = r.code

/-- The command word with these bits. A command is 36 bits (R44); a container rounded up to whole bytes has four bits more,
which are no part of the command (assumption 8, DESIGN CHOICE, unsafe above bit 35). -/
def commandOfBits (w : Nat) : Command :=
  BitVec.ofNat 36 w

/-- The command the decoder reads from a word numbered as spec/opcode_table.json numbers it; none where it refuses. Every
command has the one length of 36 bits (R44), so how many bits the table's row has decides nothing. -/
def decodeTableWord (_nbits w : Nat) : Option Instr :=
  match decode (commandOfBits w) with
  | .ok i => some i
  | .error _ => none

end Sys2Proof
end

