-- ==== Sys2Proof/Config.lean ====
section
/-! DEFINITION. What the spec leaves open, as constants with no body. The polynomial, the seed, the round count, the chunk
size and the byte order are NOT here: they are fixed definitions and no configuration (00_scope.md R3, 10_state.md R24).
Nothing can evaluate these constants, so a theorem that mentions one holds for every value of it. -/

namespace Sys2Proof

/-- `ACC` after the n-th loss of power without reset: any value (93_implementation_defined.md U7; assumption 5,
DESIGN CHOICE, unsafe for comparing two runs). -/
opaque Config.powerUpAcc : Nat → BitVec 32

/-- `ASM` after the n-th loss of power without reset: any value (U7; assumption 5,
DESIGN CHOICE, unsafe for comparing two runs). -/
opaque Config.powerUpAsm : Nat → BitVec 24

/-- `CNT` after the n-th loss of power without reset: any value (U7; assumption 5,
DESIGN CHOICE, unsafe for comparing two runs). -/
opaque Config.powerUpCnt : Nat → BitVec 2

/-- One less than `XFORM_LATENCY` of a command kind, so that the latency itself is positive (R90). What a kind is, the spec
does not say: here it is the mnemonic together with whether the command performs a word transform (assumption 7, DESIGN
CHOICE, safe). -/
opaque Config.xformLatencyPred : Mnemonic → Bool → Nat

/-- `XFORM_LATENCY`: the clock cycles a command of a kind takes from acceptance to completion, the OPEN parameter of R6
and R90, a positive integer per command kind: its mnemonic and whether it performs a word transform (assumption 7, DESIGN
CHOICE, safe). No rule of the model depends on it (92_eei_decisions.md D16). -/
def Config.xformLatency (m : Mnemonic) (transforms : Bool) : Nat :=
  Config.xformLatencyPred m transforms + 1

end Sys2Proof
end

