-- ==== Sys2Proof/Machine/State.lean ====
section
/-! DEFINITION. The state of CRC32-CORE: the three registers of 10_state.md R13 and, outside the block, the host's side of
the command port: the inputs still to come (R18, R24 "the input of a run") and the responses already returned (R92, the
observation of a run). The reasons a step can stop stand here too. -/

namespace Sys2Proof.Machine

/-- The block raises no exception, trap or fault (60_exceptions.md R72, R75): there is no fault reason, so no step can end
in a fault. Nobody raises one (assumption 10, DEDUCED). Safe: with no constructor, no fault can be invented. -/
inductive Fault where
  deriving DecidableEq, Repr

/-- Why the model refuses a command: exactly the three cases of R76, with the information R76 says is recorded. A refused
command has no specified behaviour (R78), so the step ends the run there (assumption 3, DEDUCED, safe). -/
inductive Refusal where
  /-- No meaning for the instruction yet. Raised by nobody: every command of the opcode table has its meaning. Safe. -/
  | notModelled (mnemonic : String)
  /-- RF1 RESERVED_OP: raised by the decoder through `perform` on a word with op 0x7 to 0xF; records the word (R76).
  Safe: the model stops where an implementation may do anything (R78, U1). -/
  | reservedOp (cmd : Command)
  /-- RF2 NONZERO_RESERVED_DATA: raised by the decoder through `perform` on a READ, SEED, FINISH, STAT or BYTE word with an
  unused data bit set; records the word (R76). Safe (R78, U2). -/
  | nonzeroReservedData (cmd : Command)
  /-- RF3 PARTIAL_WORD: raised by `execLoad` and `execWord` when bytes are pending (`CNT != 0`); records the word and `CNT`
  (R76). Safe (R78, U3). -/
  | partialWord (cmd : Command) (cnt : BitVec 2)
  deriving DecidableEq, Repr

/-- One thing the outside world does to the block at the boundary between two commands. -/
inductive HostInput where
  /-- The host issues a command word on the command port (R18, R32). -/
  | command (w : Command)
  /-- The host lets time pass without a command (R88 "waiting any length of time"; R83, the block is idle). -/
  | wait
  /-- The platform asserts reset with no command in progress (R84). -/
  | reset
  /-- The platform asserts reset while the command `w` is in progress: the command is cancelled, without a response (R84;
  assumption 4, DESIGN CHOICE, safe). -/
  | cancelled (w : Command)
  /-- Power is lost and returns, without a reset: every register then holds any value (U7; assumption 5, DESIGN CHOICE,
  unsafe for comparing two runs). -/
  | powerLoss
  deriving DecidableEq, Repr

/-- The three registers, which are all of the block's architectural state (R13). -/
structure Regs where
  /-- `ACC`, the accumulator. -/
  acc : BitVec 32
  /-- `ASM`, up to three pending bytes, little-endian (R15). -/
  asm : BitVec 24
  /-- `CNT`, the number of pending bytes, 0 to 3 (R16). -/
  cnt : BitVec 2
  deriving DecidableEq, Repr

/-- The whole state of a run. `acc`, `asm` and `cnt` are the block's registers (R13); the other three fields are the
model's own, on the host's side of the port: no command reads them. -/
structure State where
  /-- `ACC`, 32 bits: the CRC register (R14). -/
  acc : BitVec 32
  /-- `ASM`, 24 bits: the pending bytes of the chunk being assembled (R15). -/
  asm : BitVec 24
  /-- `CNT`, 2 bits: how many bytes are pending (R16). -/
  cnt : BitVec 2
  /-- What the outside world will do, first input first: the program of a run, whose head a step consumes (R18, R24;
  assumption 2, DESIGN CHOICE, safe). Commands of several hosts are one sequence (R81; assumption 12, DEDUCED, safe). -/
  inputs : List HostInput
  /-- The responses returned so far, oldest first: what a run observes (R92), not a register of the block (R24;
  assumption 1, DESIGN CHOICE, safe). -/
  responses : List Word
  /-- How many losses of power there have been: the counter that makes each one's free values fresh (assumption 5, DESIGN CHOICE,
  unsafe for comparing two runs). -/
  powerLosses : Nat
  deriving DecidableEq, Repr

/-- The block's own part of a state (R13). -/
def State.regs (s : State) : Regs :=
  ⟨s.acc, s.asm, s.cnt⟩

/-- The machine right after reset (R23, R84): `ACC = 0xFFFFFFFF`, `ASM = 0`, `CNT = 0`; nothing issued, nothing answered. -/
def State.reset : State where
  acc := 0xFFFFFFFF#32
  asm := 0x000000#24
  cnt := 0#2
  inputs := []
  responses := []
  powerLosses := 0

end Sys2Proof.Machine
end

