-- ==== Sys2Proof/Machine/Operands.lean ====
section
/-! DEFINITION. Operand assembly and byte placement (30_encoding.md R40, 20_memory.md R25, 00_scope.md R10). The placement is
little-endian and fixed in the hardware: nothing selects another one (R28). -/

namespace Sys2Proof.Machine

/-- `le_word(c0, c1, c2, c3)` of R10: the first byte of a chunk goes to bits 7:0 and the last to bits 31:24 (R25). -/
def leWord (c0 c1 c2 c3 : Byte) : Word :=
  c0.setWidth 32 ||| (c1.setWidth 32 <<< 8) ||| (c2.setWidth 32 <<< 16) ||| (c3.setWidth 32 <<< 24)

/-- `le_bytes(w)` of R10: the bytes of a word, the least significant first. -/
def leBytes (w : Word) : List Byte :=
  [w.extractLsb' 0 8, w.extractLsb' 8 8, w.extractLsb' 16 8, w.extractLsb' 24 8]

/-- `ASM[8k+7 : 8k]`: the k-th pending byte, k = 0, 1, 2 (R15). -/
def asmLane (asm : BitVec 24) (k : Nat) : Byte :=
  asm.extractLsb' (8 * k) 8

/-- `ASM[8k+7 : 8k] <- b`: the other two lanes are kept (R15, R40, R59). -/
def putLane (asm : BitVec 24) (k : Nat) (b : Byte) : BitVec 24 :=
  (asm &&& ~~~(0xFF#24 <<< (8 * k))) ||| (b.setWidth 24 <<< (8 * k))

/-- `{imm8, ASM[23:0]}`: the completed chunk, the new byte in bits 31:24 (R40, R59). -/
def completedWord (b : Byte) (asm : BitVec 24) : Word :=
  b ++ asm

/-- `zext_32(ASM)`: the zero-padded tail word (R60, R17). -/
def tailWord (asm : BitVec 24) : Word :=
  asm.setWidth 32

end Sys2Proof.Machine
end

