-- ==== Sys2Proof/Machine/Flags.lean ====
section
/-! DEFINITION. The block has no flags, condition codes, control registers or status register (10_state.md R19, R20), and no
command sets one: there is no flag computation. Its one status value is the read-only view that STAT answers with. -/

namespace Sys2Proof.Machine

/-- `{6'b0, CNT[1:0], ASM[23:0]}`: bits 31:26 are 0, bits 25:24 are `CNT`, bits 23:0 are `ASM` (R20, R71). -/
def statusWord (cnt : BitVec 2) (asm : BitVec 24) : Word :=
  0#6 ++ cnt ++ asm

end Sys2Proof.Machine
end

