-- ==== Sys2Proof/Machine/Ops.lean ====
section
/-! DEFINITION. The fixed constants of the block, its two datapath functions (40_word_transform.md R48, R49) and the named
operations over its state from which every meaning is made. The block raises no exception and has no return from one
(60_exceptions.md R72, R75), so there is no exception entry here; the refusal RF3 that LOAD and WORD share is. -/

namespace Sys2Proof.Machine

/-- `POLY`: the divider polynomial, the x^32 term implicit (R6). A fixed definition (R3, R24). -/
def poly : Word := 0x04C11DB7#32

/-- `SEED`: the initial accumulator (R6). A fixed definition (R3, R24). -/
def seed : Word := 0xFFFFFFFF#32

/-- `ROUNDS`: divider rounds per word (R6, R49). -/
def rounds : Nat := 32

/-- `CHUNK`: bytes per word (R6). -/
def chunkBytes : Nat := 4

/-- `ROUND(a)` of R48: bit 31 is tested before the shift, and the bit shifted out of position 31 is discarded (R8, R73). -/
def divRound (a : Word) : Word :=
  if a[31] then (a <<< 1) ^^^ poly else a <<< 1

/-- `n` divider rounds, one after another. -/
def divRounds : Nat → Word → Word
  | 0, x => x
  | n + 1, x => divRounds n (divRound x)

/-- The word transform `T(a, w)` of R49: exactly 32 rounds on `a ^ w`, with no early exit. -/
def transform (a w : Word) : Word :=
  divRounds rounds (a ^^^ w)

/-- `D8(c, b)` of R55: eight rounds on the accumulator with the byte in bits 31:24. No command uses it; it states the
byte-serial view of the transform. -/
def divByte (c : Word) (b : Byte) : Word :=
  divRounds 8 (c ^^^ (b.setWidth 32 <<< 24))

/-- `ACC <- v`. -/
def State.setAcc (s : State) (v : Word) : State :=
  { s with acc := v }

/-- `ASM <- v`. -/
def State.setAsm (s : State) (v : BitVec 24) : State :=
  { s with asm := v }

/-- `CNT <- v`. -/
def State.setCnt (s : State) (v : BitVec 2) : State :=
  { s with cnt := v }

/-- `respond(v)`: the 32-bit response of the current command (R9, R36), added to the run's observation (R92). -/
def State.respond (s : State) (v : Word) : State :=
  { s with responses := s.responses ++ [v] }

/-- `ASM <- 0` and `CNT <- 0`: no bytes pending (R58, R59, R60). -/
def State.clearAssembler (s : State) : State :=
  (s.setAsm 0#24).setCnt 0#2

/-- Write byte `b` to the lane `CNT` of `ASM` and count it (R59, `CNT < 3`). -/
def State.pushByte (s : State) (b : Byte) : State :=
  (s.setAsm (putLane s.asm s.cnt.toNat b)).setCnt (s.cnt + 1#2)

/-- `ACC <- T(ACC, w)`: feed one word to the transform (R47, R49). -/
def State.feed (s : State) (w : Word) : State :=
  s.setAcc (transform s.acc w)

/-- The three registers at the values of R23; what SEED sets is the same (R58, R85). -/
def State.seedRegs (s : State) : State :=
  (s.setAcc seed).clearAssembler

/-- The state precondition of LOAD and WORD (R53, R54): at a chunk boundary (`CNT = 0`, R29) go on to `t`; with bytes
pending, refuse with RF3, recording the command word and `CNT` (R76). -/
def atChunkBoundary (i : Instr) (s t : State) : Host.Outcome State Fault Refusal :=
  if s.cnt = 0#2 then .next t else .refused (.partialWord (encode i) s.cnt)

/-- Loss of power without reset: any value for `ACC`, `ASM` and `CNT` (U7; assumption 5, DESIGN CHOICE,
unsafe for comparing two runs). The values are free: a new index
of the constants of Config for each loss. -/
def State.losePower (s : State) : State :=
  { s with
    acc := Config.powerUpAcc s.powerLosses
    asm := Config.powerUpAsm s.powerLosses
    cnt := Config.powerUpCnt s.powerLosses
    powerLosses := s.powerLosses + 1 }

/-- The state with another sequence of inputs still to come (R24). -/
def State.withInputs (s : State) (l : List HostInput) : State :=
  { s with inputs := l }

/-- The state a run of an input sequence starts from (R92): the registers as they are, the run's inputs still to come and no
response returned in this run yet. -/
def State.startRun (s : State) (l : List HostInput) : State :=
  { s with inputs := l, responses := [] }

/-- The state with a command word issued before everything else that is still to come. -/
def State.placeCommand (s : State) (w : Command) : State :=
  s.withInputs (.command w :: s.inputs)

end Sys2Proof.Machine
end

