-- ==== Sys2Proof/Machine/Readback.lean ====
section
/-! DEFINITION. The readback commands READ and STAT (42_readback.md): legal in every state, and they write no register. -/

namespace Sys2Proof.Machine

/-- READ (R70): respond with `ACC`, which does not include the pending bytes. -/
def execRead (s : State) : Host.Outcome State Fault Refusal :=
  .next (s.respond s.acc)

/-- STAT (R71): respond with the status view of `CNT` and `ASM`. -/
def execStat (s : State) : Host.Outcome State Fault Refusal :=
  .next (s.respond (statusWord s.cnt s.asm))

end Sys2Proof.Machine
end

