-- ==== Sys2Proof/Machine/Stream.lean ====
section
/-! DEFINITION. The stream commands SEED, BYTE and FINISH (41_stream.md): legal in every state. -/

namespace Sys2Proof.Machine

/-- SEED (R58): the seed in `ACC`, pending bytes discarded; the response is the seed. -/
def execSeed (s : State) : Host.Outcome State Fault Refusal :=
  .next (s.seedRegs.respond seed)

/-- BYTE (R59): while fewer than 3 bytes are pending, the byte joins them and the response is the unchanged `ACC`; the
fourth byte completes the chunk, whose word is transformed in the same command, and the response is the new `ACC`. -/
def execByte (imm8 : BitVec 8) (s : State) : Host.Outcome State Fault Refusal :=
  if s.cnt.toNat < 3 then
    .next ((s.pushByte imm8).respond s.acc)
  else
    .next (((s.feed (completedWord imm8 s.asm)).clearAssembler).respond
      (transform s.acc (completedWord imm8 s.asm)))

/-- The tail step of FINISH (R60): one transform of the zero-padded tail when bytes are pending, none otherwise. -/
def State.applyTail (s : State) : State :=
  if s.cnt = 0#2 then s else s.feed (tailWord s.asm)

/-- FINISH (R60): apply the tail, leave no byte pending, and respond with the resulting `ACC`; it does not seed again. -/
def execFinish (s : State) : Host.Outcome State Fault Refusal :=
  .next (s.applyTail.clearAssembler.respond s.applyTail.acc)

end Sys2Proof.Machine
end

