-- ==== Sys2Proof/Machine/WordTransform.lean ====
section
/-! DEFINITION. The word commands LOAD and WORD (40_word_transform.md): refused with RF3 while bytes are pending. -/

namespace Sys2Proof.Machine

/-- LOAD (R53): set the accumulator; the response is the operand. -/
def execLoad (imm32 : BitVec 32) (s : State) : Host.Outcome State Fault Refusal :=
  atChunkBoundary (.load imm32) s ((s.setAcc imm32).respond imm32)

/-- WORD (R54): feed one 32-bit word, taken as it stands (R27), through the transform; the response is the new `ACC`. -/
def execWord (imm32 : BitVec 32) (s : State) : Host.Outcome State Fault Refusal :=
  atChunkBoundary (.word imm32) s ((s.feed imm32).respond (transform s.acc imm32))

end Sys2Proof.Machine
end

