-- ==== Sys2Proof/Machine/Dispatch.lean ====
section
/-! DEFINITION. One arm per command of the opcode table (30_encoding.md R41). -/

namespace Sys2Proof.Machine

def exec (i : Instr) (s : State) : Host.Outcome State Fault Refusal :=
  match i with
  | .read => Sys2Proof.Machine.execRead s
  | .seed => Sys2Proof.Machine.execSeed s
  | .load imm32 => Sys2Proof.Machine.execLoad imm32 s
  | .word imm32 => Sys2Proof.Machine.execWord imm32 s
  | .byte imm8 => Sys2Proof.Machine.execByte imm8 s
  | .finish => Sys2Proof.Machine.execFinish s
  | .stat => Sys2Proof.Machine.execStat s

end Sys2Proof.Machine
end

