-- ==== Sys2Proof/Machine/Port.lean ====
section
/-! DEFINITION. The command port and the platform's inputs (20_memory.md R32, 60_exceptions.md R76 to R78 and R83,
70_reset_and_hazards.md R84, R87, R88): what each thing the outside world can do to the block does to it. -/

namespace Sys2Proof.Machine

/-- One command word at the port: decode it, then perform the command as one atomic step (R42, R87, R88). The priority of
the refusal reasons is RF1, RF2, RF3 (R77): the first two are the decoder's, the third the command's. -/
def perform (w : Command) (s : State) : Host.Outcome State Fault Refusal :=
  match decode w with
  | .ok i => exec i s
  | .error .reservedOp => .refused (.reservedOp w)
  | .error .nonzeroReservedData => .refused (.nonzeroReservedData w)

/-- Reset while the command `w` is in progress (R84): the registers get their reset values and the command has no response.
A word that the model refuses is refused here as well, because nothing may be claimed after one (R78; assumption 4, DESIGN CHOICE, safe). -/
def cancelByReset (w : Command) (s : State) : Host.Outcome State Fault Refusal :=
  match perform w s with
  | .next _ => .next s.seedRegs
  | .fault r => .fault r
  | .refused r => .refused r

/-- What one input does, the input itself having been consumed already. -/
def takeInput (x : HostInput) (s : State) : Host.Outcome State Fault Refusal :=
  match x with
  | .command w => perform w s
  | .wait => .next s
  | .reset => .next s.seedRegs
  | .cancelled w => cancelByReset w s
  | .powerLoss => .next s.losePower

/-- With nothing issued the block is idle and holds its state (R83; assumption 6, DEDUCED, unsafe for termination). -/
def idle (s : State) : Host.Outcome State Fault Refusal :=
  .next s

end Sys2Proof.Machine
end

