-- ==== Sys2Proof/Machine/Step.lean ====
section
/-! DEFINITION. One step: the block has no program counter and fetches nothing (10_state.md R18, 20_memory.md R34); a step
consumes the head of the host's input sequence (R18, R32). -/

namespace Sys2Proof.Machine

/-- The next input is taken from the head of the sequence; with none left the block idles. -/
def step (s : State) : Host.Outcome State Fault Refusal :=
  match s.inputs with
  | [] => idle s
  | x :: rest => takeInput x (s.withInputs rest)

/-- The state in which the very next step performs the command word with these bits: the host issues it first. The
registers, the later inputs and the responses are untouched (assumption 2, DESIGN CHOICE, safe). Every command is 36 bits (R44), so the row's
length decides nothing. -/
def State.withFetchWord (s : State) (_nbits w : Nat) : State :=
  s.placeCommand (commandOfBits w)

end Sys2Proof.Machine
end

