-- ==== Sys2Proof/Machine/StreamFunction.lean ====
section
/-! DEFINITION. The stream function of the source, as a function of a byte buffer (41_stream.md R57, R62, R66). The commands
SEED, BYTE and FINISH compute it one byte at a time; this is what they are held against. -/

namespace Sys2Proof.Machine

/-- The loop and the tail of R57 from the accumulator `acc`: one transform per chunk of four bytes, and exactly one more
for a tail of 1 to 3 bytes, with zero high bytes. -/
def streamFrom (acc : Word) : List Byte → Word
  | [] => acc
  | [c0] => transform acc (leWord c0 0#8 0#8 0#8)
  | [c0, c1] => transform acc (leWord c0 c1 0#8 0#8)
  | [c0, c1, c2] => transform acc (leWord c0 c1 c2 0#8)
  | c0 :: c1 :: c2 :: c3 :: rest => streamFrom (transform acc (leWord c0 c1 c2 c3)) rest

/-- `stream(B)` of R57: no final XOR, no reflection. -/
def stream (buf : List Byte) : Word :=
  streamFrom seed buf

/-- The source's `stream(buffer, length)` (R57, R62): an absent buffer gives the seed, whatever the length. A length beyond
the buffer has no stated result (91_not_in_source.md N6, U8): none (assumption 11, DEDUCED, safe). -/
def streamCall (buf : Option (List Byte)) (length : Nat) : Option Word :=
  match buf with
  | none => some seed
  | some b => if length ≤ b.length then some (stream (b.take length)) else none

/-- `pad(B)` of R66: zero bytes up to the next chunk boundary. -/
def padded (buf : List Byte) : List Byte :=
  buf ++ List.replicate ((chunkBytes - buf.length % chunkBytes) % chunkBytes) 0#8

end Sys2Proof.Machine
end

