-- ==== Sys2Proof/Machine/Pseudo.lean ====
section
/-! DEFINITION. The pseudo-commands and the host's fixed command sequences, as the commands they expand to (30_encoding.md
R46, 41_stream.md R62, R69). Each expansion is the definition. -/

namespace Sys2Proof.Machine

/-- `XFORM a, w` (R46, R56). -/
def xform (a w : Word) : List Instr :=
  [.load a, .word w]

/-- `WORDLE c0, c1, c2, c3` (R46). -/
def wordle (c0 c1 c2 c3 : Byte) : List Instr :=
  [.word (leWord c0 c1 c2 c3)]

/-- One BYTE command per byte of a buffer, in buffer order (R93). -/
def feedBytes (buf : List Byte) : List Instr :=
  buf.map .byte

/-- `STREAM c0, ..., c(n-1)` (R46); with no byte it is `SEED ; FINISH`. -/
def streamCommands (buf : List Byte) : List Instr :=
  .seed :: (feedBytes buf ++ [.finish])

/-- The commands a host issues for the source's `stream(buffer, length)` (R62): none when the length exceeds the buffer,
because the host has no byte to send there (U8: refused at the host boundary). -/
def streamCallCommands (buf : Option (List Byte)) (length : Nat) : Option (List Instr) :=
  match buf with
  | none => some (streamCommands [])
  | some b => if length ≤ b.length then some (streamCommands (b.take length)) else none

/-- The responses to READ and STAT, which together hold the whole context (R69, R82). -/
def saveContext : List Instr :=
  [.read, .stat]

/-- The commands that bring back a context saved as `s` (from READ) and `t` (from STAT) (R69). -/
def restoreContext (s t : Word) : List Instr :=
  [.seed, .load s]
    ++ (if 1 ≤ (t.extractLsb' 24 2).toNat then [.byte (t.extractLsb' 0 8)] else [])
    ++ (if 2 ≤ (t.extractLsb' 24 2).toNat then [.byte (t.extractLsb' 8 8)] else [])
    ++ (if (t.extractLsb' 24 2).toNat = 3 then [.byte (t.extractLsb' 16 8)] else [])

end Sys2Proof.Machine
end

