-- ==== Sys2Proof/Machine/Assembler.lean ====
section
/-! DEFINITION. The assembler syntax of 30_encoding.md R45 and the pseudo-commands of R46, from the characters of a line to
command words. A line is a list of characters, so that the kernel can evaluate it. -/

namespace Sys2Proof.Machine

/-- Why a line is refused: it is then not encoded. R45 names only the out-of-range operand as an assembly error; these four
reasons, and which of them a line gets, are the model's choice (assumption 15, DESIGN CHOICE, unsafe for claims about such
texts). -/
inductive AsmError where
  /-- The line does not open with one of the mnemonics. -/
  | unknownMnemonic
  /-- An operand is not a number in the syntax of R45; a hex numeral of 9 or more digits is none. -/
  | badNumber
  /-- The command takes another number of operands. -/
  | operandCount
  /-- An operand is out of range. -/
  | outOfRange
  deriving DecidableEq, Repr

/-- The blanks between the parts of a line: space and tab (assumption 9, DESIGN CHOICE, unsafe for such texts). -/
def isBlank (c : Char) : Bool :=
  c == ' ' || c == '\t'

/-- A line without the blanks at its two ends. -/
def trimBlanks (cs : List Char) : List Char :=
  ((cs.dropWhile isBlank).reverse.dropWhile isBlank).reverse

/-- The text before the comment: what follows `;` is a comment (R45). -/
def withoutComment (cs : List Char) : List Char :=
  trimBlanks (cs.takeWhile (fun c => c != ';'))

/-- An upper-case letter for a lower-case one: mnemonics are case-insensitive (R45). -/
def upperCase (c : Char) : Char :=
  if 'a' ≤ c ∧ c ≤ 'z' then Char.ofNat (c.toNat - 32) else c

/-- The mnemonics of R41 and the pseudo-commands of R46, in upper case. -/
def sourceNames : List (List Char × SourceName) :=
  [ (['R', 'E', 'A', 'D'], .command .read),
    (['S', 'E', 'E', 'D'], .command .seed),
    (['L', 'O', 'A', 'D'], .command .load),
    (['W', 'O', 'R', 'D'], .command .word),
    (['B', 'Y', 'T', 'E'], .command .byte),
    (['F', 'I', 'N', 'I', 'S', 'H'], .command .finish),
    (['S', 'T', 'A', 'T'], .command .stat),
    (['X', 'F', 'O', 'R', 'M'], .xform),
    (['W', 'O', 'R', 'D', 'L', 'E'], .wordle),
    (['S', 'T', 'R', 'E', 'A', 'M'], .stream) ]

/-- The name a line opens with, in any case (R45). -/
def sourceNameOf (cs : List Char) : Option SourceName :=
  sourceNames.lookup (cs.map upperCase)

/-- The value of a digit, up to 15. -/
def digitValue (c : Char) : Option Nat :=
  if '0' ≤ c ∧ c ≤ '9' then some (c.toNat - '0'.toNat)
  else if 'a' ≤ c ∧ c ≤ 'f' then some (c.toNat - 'a'.toNat + 10)
  else if 'A' ≤ c ∧ c ≤ 'F' then some (c.toNat - 'A'.toNat + 10)
  else none

/-- The digits of a numeral in a base, the most significant first; none if a character is no digit of the base. -/
def digitsValue (base : Nat) : Nat → List Char → Option Nat
  | acc, [] => some acc
  | acc, c :: cs =>
    match digitValue c with
    | none => none
    | some d => if d < base then digitsValue base (acc * base + d) cs else none

/-- A number in the syntax of R45: `0x` and 1 to 8 hex digits, or a decimal numeral. -/
def numberOf (cs : List Char) : Option Nat :=
  match cs with
  | [] => none
  | '0' :: 'x' :: ds => if 1 ≤ ds.length ∧ ds.length ≤ 8 then digitsValue 16 0 ds else none
  | ds => digitsValue 10 0 ds

/-- The operand texts between the commas. -/
def splitCommas : List Char → List (List Char)
  | [] => [[]]
  | c :: cs =>
    if c == ',' then [] :: splitCommas cs
    else
      match splitCommas cs with
      | [] => [[c]]
      | p :: ps => (c :: p) :: ps

/-- The operands of a line: none for an empty text, else one number between each two commas. -/
def operandsOf (cs : List Char) : Option (List Nat) :=
  match trimBlanks cs with
  | [] => some []
  | t => (splitCommas t).mapM (fun p => numberOf (trimBlanks p))

/-- A line as written (R45): none for a line that holds only blanks and a comment (assumption 9, DESIGN CHOICE, unsafe for such texts). -/
def parseLine (cs : List Char) : Except AsmError (Option SourceLine) :=
  match withoutComment cs with
  | [] => .ok none
  | t =>
    match sourceNameOf (t.takeWhile (fun c => !isBlank c)) with
    | none => .error .unknownMnemonic
    | some name =>
      match operandsOf (t.dropWhile (fun c => !isBlank c)) with
      | none => .error .badNumber
      | some ops => .ok (some ⟨name, ops⟩)

/-- The commands a well-formed line stands for (R45, R46); none for an ill-formed one. -/
def expandLine (l : SourceLine) : Option (List Instr) :=
  if l.wellFormed then
    match l.name, l.operands with
    | .command .read, [] => some [.read]
    | .command .seed, [] => some [.seed]
    | .command .load, [x] => some [.load (BitVec.ofNat 32 x)]
    | .command .word, [x] => some [.word (BitVec.ofNat 32 x)]
    | .command .byte, [x] => some [.byte (BitVec.ofNat 8 x)]
    | .command .finish, [] => some [.finish]
    | .command .stat, [] => some [.stat]
    | .xform, [a, w] => some (xform (BitVec.ofNat 32 a) (BitVec.ofNat 32 w))
    | .wordle, [c0, c1, c2, c3] =>
      some (wordle (BitVec.ofNat 8 c0) (BitVec.ofNat 8 c1) (BitVec.ofNat 8 c2) (BitVec.ofNat 8 c3))
    | .stream, xs => some (streamCommands (xs.map (BitVec.ofNat 8)))
    | _, _ => none
  else none

/-- One line of an assembler text, as command words (R45): `cmd = op << 32 | data` for each command it stands for. A
refused line gets the first reason that applies: unknown mnemonic, bad number, operand count, out of range (assumption 15,
DESIGN CHOICE, unsafe for claims about such texts). -/
def assembleLine (cs : List Char) : Except AsmError (List Command) :=
  match parseLine cs with
  | .error e => .error e
  | .ok none => .ok []
  | .ok (some l) =>
    if l.countOk then
      match expandLine l with
      | none => .error .outOfRange
      | some is => .ok (is.map encode)
    else .error .operandCount

/-- The lines of a text in order. R45 says only that a refused line is not encoded; that the first one refuses the whole
text, with nothing of it encoded, is the model's choice (assumption 14, DESIGN CHOICE, unsafe for such texts). -/
def assemble : List (List Char) → Except AsmError (List Command)
  | [] => .ok []
  | l :: ls =>
    match assembleLine l with
    | .error e => .error e
    | .ok ws =>
      match assemble ls with
      | .error e => .error e
      | .ok rest => .ok (ws ++ rest)

end Sys2Proof.Machine
end

