-- ==== Sys2Proof/Machine/Timing.lean ====
section
/-! DEFINITION. What the spec says of work and time (41_stream.md R65, 70_reset_and_hazards.md R90): how many word transforms
a command performs, and the OPEN cycle count. The step has no time and reads nothing of this file. -/

namespace Sys2Proof.Machine

/-- The word transforms a command performs in a state (R65, R90): one for WORD, for the BYTE that completes a chunk and for
a FINISH with bytes pending; none otherwise. -/
def transformsOf (i : Instr) (s : State) : Nat :=
  match i with
  | .read => 0
  | .seed => 0
  | .load _ => 0
  | .word _ => 1
  | .byte _ => if s.cnt = 3#2 then 1 else 0
  | .finish => if s.cnt = 0#2 then 0 else 1
  | .stat => 0

/-- The word transforms a command sequence performs from a state, up to a refused command. -/
def transformsOver : List Instr → State → Nat
  | [], _ => 0
  | i :: is, s =>
    match exec i s with
    | .next t => transformsOf i s + transformsOver is t
    | .fault _ => 0
    | .refused _ => 0

/-- The clock cycles of a command sequence from a state, up to a refused command, each command taking the OPEN `XFORM_LATENCY`
of its kind (R90; assumption 7, DESIGN CHOICE, safe): the port accepts a command only when the previous one has completed
(R87). -/
def cyclesOver : List Instr → State → Nat
  | [], _ => 0
  | i :: is, s =>
    match exec i s with
    | .next t => Config.xformLatency i.mnemonic (transformsOf i s != 0) + cyclesOver is t
    | .fault _ => 0
    | .refused _ => 0

end Sys2Proof.Machine
end

