-- ==== Sys2Proof/Polynomial.lean ====
section
/-! DEFINITION. The polynomial reading of 00_scope.md R11: the spec's notation, in which some of its derived rules are
stated. Nothing of the machine uses it. -/

namespace Sys2Proof

open Polynomial

/-- The polynomial over GF(2) whose coefficient of `x^i` is `v[i]`, for i from 0 to 31 (R11). -/
noncomputable def polyOf (v : Word) : Polynomial (ZMod 2) :=
  ∑ i ∈ Finset.range 32, if v.getLsbD i then X ^ i else 0

/-- The divider polynomial `P(x) = x^32 + POLY(x)` (R11). -/
noncomputable def dividerPoly : Polynomial (ZMod 2) :=
  X ^ 32 + polyOf Machine.poly

end Sys2Proof
end

