-- ==== Sys2Proof/Machine/Run.lean ====
section
/-! DEFINITION. Runs (20_memory.md R32, 60_exceptions.md R78, 70_reset_and_hazards.md R92): a finite sequence of inputs from
a start state, with the mark that a refusal leaves and that nothing clears. -/

namespace Sys2Proof.Machine

/-- `n` steps, stopping at the first refusal: the host's `Core.run` at this machine. -/
def runSteps : Nat → State → Host.Outcome State Fault Refusal
  | 0, s => .next s
  | n + 1, s =>
    match step s with
    | .next t => runSteps n t
    | .fault r => .fault r
    | .refused r => .refused r

/-- The run of an input sequence from a state: one step per input. -/
def runInputs (l : List HostInput) (s : State) : Host.Outcome State Fault Refusal :=
  runSteps l.length (s.withInputs l)

/-- The host's input sequence that issues commands and nothing else. -/
def issued (is : List Instr) : List HostInput :=
  is.map (fun i => .command (encode i))

/-- The outcome of issuing a command sequence from a state: each command's word is issued at the port in turn (R32). -/
def issue (is : List Instr) (s : State) : Host.Outcome State Fault Refusal :=
  runInputs (issued is) s

/-- The left fold of the command rules over a sequence of command words (R32). -/
def performAll : List Command → State → Host.Outcome State Fault Refusal
  | [], s => .next s
  | w :: ws, s =>
    match perform w s with
    | .next t => performAll ws t
    | .fault r => .fault r
    | .refused r => .refused r

/-- A run in progress: its state and the mark of R78, none until a command is refused. -/
structure Run where
  state : State
  mark : Option Refusal
  deriving DecidableEq, Repr

/-- What a run lets an observer see (R92). -/
structure Observation where
  /-- The run's responses, one per command, up to a refused command. -/
  responses : List Word
  /-- The final registers; none after a refusal, from which on nothing is specified (R78). -/
  regs : Option Regs
  deriving DecidableEq, Repr

/-- One step of a run (R78): a refusal sets the mark, and with the mark set nothing more is done and the mark stays. -/
def Run.advance (r : Run) : Run :=
  match r.mark with
  | some _ => r
  | none =>
    match step r.state with
    | .next t => ⟨t, none⟩
    | .fault e => nomatch e
    | .refused c => ⟨r.state, some c⟩

/-- `n` steps of a run. -/
def Run.advances : Nat → Run → Run
  | 0, r => r
  | n + 1, r => Run.advances n r.advance

/-- A run of an input sequence from a start state (R92): no response of this run yet (assumption 1, DESIGN
CHOICE, safe) and no refusal recorded. -/
def Run.start (l : List HostInput) (s : State) : Run :=
  ⟨s.startRun l, none⟩

/-- The observation of a run so far (R92): the responses of the commands performed, and the registers unless a refusal is
recorded. A refused command adds no response and ends the run, so the responses before it stay observed (assumption 3, DEDUCED,
safe). -/
def Run.observation (r : Run) : Observation where
  responses := r.state.responses
  regs :=
    match r.mark with
    | none => some r.state.regs
    | some _ => none

end Sys2Proof.Machine
end

