-- ==== Sys2Proof/Safety.lean ====
section
/-! DEFINITION. What counts as a safe state, a safe input and a safe run, in the terms the statements use. -/

namespace Sys2Proof.Machine

/-- The assembler invariant of 10_state.md R17: every byte lane of `ASM` at or above `CNT` is zero. -/
abbrev State.LanesClear (s : State) : Prop :=
  s.asm >>> (8 * s.cnt.toNat) = 0#24

/-- No loss of power is still to come (U7: a model should assume reset or SEED before use). -/
abbrev State.PowerHolds (s : State) : Prop :=
  HostInput.powerLoss ∉ s.inputs

/-- The invariant of a run without loss of power: R17 holds now, and no input to come can break it. -/
abbrev State.Inv (s : State) : Prop :=
  s.LanesClear ∧ s.PowerHolds

/-- What the host must observe when it issues the command word `w` (70_reset_and_hazards.md R93): no reserved or ill-formed
word, and LOAD (0x2) and WORD (0x3) only at `CNT = 0`. Written from R93 and R43, without the decoder. -/
def commandDuty (s : State) (w : Command) : Bool :=
  w.wellFormed && (((w >>> 32).toNat != 2 && (w >>> 32).toNat != 3) || s.cnt == 0#2)

/-- The host's duty at the next input (R93). The inputs that issue no command carry none; that a command which reset cancels
carries the same duty as any other is the model's choice (assumption 4, DESIGN CHOICE, safe). -/
def hostDuty (s : State) : Bool :=
  match s.inputs with
  | [] => true
  | .command w :: _ => commandDuty s w
  | .wait :: _ => true
  | .reset :: _ => true
  | .cancelled w :: _ => commandDuty s w
  | .powerLoss :: _ => true

/-- Two outcomes a host cannot tell apart by the registers: both ran on and the registers are equal, or both were refused
for the same recorded reason. -/
def SameRegs : Host.Outcome State Fault Refusal → Host.Outcome State Fault Refusal → Prop
  | .next s, .next t => s.regs = t.regs
  | .refused a, .refused b => a = b
  | _, _ => False

end Sys2Proof.Machine
end

