-- ==== Sys2Proof/Certificates/Slice0/Obligations.lean ====
section
/-! DEFINITION. The statements about the model, for the provers. Each one's docstring names the rules of spec/ it rests on.
A meaning's next state is written out whole, so a result statement is also the command's frame and its completion. -/

open Sys2Proof Sys2Proof.Machine

/-! ## Encoding (30_encoding.md) -/

/-- The encoding examples of 30_encoding.md, word for word, and the ill-formed word its last row names. -/
def Obligations.DecodesWrittenWords : Prop :=
  decode 0x000000000#36 = .ok .read ∧
  decode 0x100000000#36 = .ok .seed ∧
  decode 0x2FFFFFFFF#36 = .ok (.load 0xFFFFFFFF#32) ∧
  decode 0x312341234#36 = .ok (.word 0x12341234#32) ∧
  decode 0x40000005C#36 = .ok (.byte 0x5C#8) ∧
  decode 0x500000000#36 = .ok .finish ∧
  decode 0x600000000#36 = .ok .stat ∧
  decode 0x40000015C#36 = .error .nonzeroReservedData

/-- No bit of an encoding is dropped: every command, with every operand, is read back from its word (R41, R42, R45). -/
def Obligations.DecodeOfEncode : Prop :=
  ∀ i : Instr, decode (encode i) = .ok i

/-- Each word has one meaning: a word the decoder reads as a command is that command's own word (R41, R42). -/
def Obligations.EncodeOfDecode : Prop :=
  ∀ (w : Command) (i : Instr), decode w = .ok i → encode i = w

/-- The opcode map of R41: at most one row covers a command word, and the decoder reads a command of a row exactly from the
words that the row's match and mask cover. -/
def Obligations.OpcodeRowsMatchTheDecoder : Prop :=
  (∀ (w : Command), ∀ r ∈ opcodeTable, ∀ q ∈ opcodeTable, r.covers w → q.covers w → r = q) ∧
  ∀ (w : Command) (m : Mnemonic),
    (∃ i, decode w = .ok i ∧ i.mnemonic = m) ↔ ∃ r ∈ opcodeTable, r.mnemonic = m ∧ r.covers w

/-- `decode(cmd)` of R42, line by line, over all 2^36 words, and the refusal RF3 that the command rule adds after it; `op` is
the word shifted right by 32, `data` its low 32 bits. -/
def Obligations.DecodingIsTotal : Prop :=
  ∀ w : Command,
    (7 ≤ (w >>> 32).toNat → decode w = .error .reservedOp) ∧
    ((w >>> 32).toNat ∈ [0, 1, 5, 6] → w.setWidth 32 ≠ 0#32 → decode w = .error .nonzeroReservedData) ∧
    ((w >>> 32).toNat = 4 → w.setWidth 32 >>> 8 ≠ 0#32 → decode w = .error .nonzeroReservedData) ∧
    ((w >>> 32).toNat = 0 → w.setWidth 32 = 0#32 → decode w = .ok .read) ∧
    ((w >>> 32).toNat = 1 → w.setWidth 32 = 0#32 → decode w = .ok .seed) ∧
    ((w >>> 32).toNat = 2 → decode w = .ok (.load (w.setWidth 32))) ∧
    ((w >>> 32).toNat = 3 → decode w = .ok (.word (w.setWidth 32))) ∧
    ((w >>> 32).toNat = 4 → w.setWidth 32 >>> 8 = 0#32 → decode w = .ok (.byte (w.setWidth 8))) ∧
    ((w >>> 32).toNat = 5 → w.setWidth 32 = 0#32 → decode w = .ok .finish) ∧
    ((w >>> 32).toNat = 6 → w.setWidth 32 = 0#32 → decode w = .ok .stat) ∧
    (∀ s : State, (w >>> 32).toNat ∈ [2, 3] → s.cnt ≠ 0#2 → perform w s = .refused (.partialWord w s.cnt))

/-- R10 and R25: byte k of a chunk is in bits 8k+7 : 8k of its word, and `le_bytes` and `le_word` undo each other. -/
def Obligations.BytePlacementIsLittleEndian : Prop :=
  (∀ c0 c1 c2 c3 : Byte,
    (leWord c0 c1 c2 c3).extractLsb' 0 8 = c0 ∧ (leWord c0 c1 c2 c3).extractLsb' 8 8 = c1 ∧
    (leWord c0 c1 c2 c3).extractLsb' 16 8 = c2 ∧ (leWord c0 c1 c2 c3).extractLsb' 24 8 = c3) ∧
  ∀ (w : Word) (c0 c1 c2 c3 : Byte), leBytes w = [c0, c1, c2, c3] ↔ leWord c0 c1 c2 c3 = w

/-! ## The datapath (40_word_transform.md) -/

/-- R48 in numbers: the shift loses bit 31, and the polynomial is added exactly when bit 31 was set; the corner cases. -/
def Obligations.DividerRound : Prop :=
  (∀ a : Word, (divRound a).toNat =
    if 2 ^ 31 ≤ a.toNat then (2 * a.toNat % 2 ^ 32) ^^^ 0x04C11DB7 else 2 * a.toNat % 2 ^ 32) ∧
  divRound 0x00000000#32 = 0x00000000#32 ∧ divRound 0x80000000#32 = 0x04C11DB7#32 ∧
  divRound 0xFFFFFFFF#32 = 0xFB3EE249#32 ∧ divRound 0x7FFFFFFF#32 = 0xFFFFFFFE#32

/-- R49: the word is XORed in, and then the divider round is applied exactly 32 times, whatever the inputs. -/
def Obligations.WordTransformIsThirtyTwoRounds : Prop :=
  ∀ a w : Word, transform a w = divRound^[32] (a ^^^ w)

/-- R51 items 1 and 2: the transform depends only on the XOR of its inputs, and a value cancels itself. -/
def Obligations.TransformDependsOnXor : Prop :=
  (∀ a w : Word, transform a w = transform 0#32 (a ^^^ w) ∧ transform a w = transform (a ^^^ w) 0#32) ∧
  ∀ x : Word, transform x x = 0#32

/-- R51 item 3: the round and the transform are linear over GF(2). -/
def Obligations.TransformIsLinear : Prop :=
  (∀ u v : Word, divRound (u ^^^ v) = divRound u ^^^ divRound v) ∧
  ∀ a1 a2 w1 w2 : Word, transform (a1 ^^^ a2) (w1 ^^^ w2) = transform a1 w1 ^^^ transform a2 w2

/-- R11: the coefficients of a value's polynomial, the bits set in POLY, and the divider polynomial written out. -/
def Obligations.PolynomialReading : Prop :=
  (∀ (v : Word) (i : Nat), (polyOf v).coeff i = if i < 32 ∧ v.getLsbD i = true then 1 else 0) ∧
  (∀ i : Nat, poly.getLsbD i = true ↔ i ∈ [0, 1, 2, 4, 5, 7, 8, 10, 11, 12, 16, 22, 23, 26]) ∧
  dividerPoly = Polynomial.X ^ 32 + Polynomial.X ^ 26 + Polynomial.X ^ 23 + Polynomial.X ^ 22 + Polynomial.X ^ 16 +
    Polynomial.X ^ 12 + Polynomial.X ^ 11 + Polynomial.X ^ 10 + Polynomial.X ^ 8 + Polynomial.X ^ 7 +
    Polynomial.X ^ 5 + Polynomial.X ^ 4 + Polynomial.X ^ 2 + Polynomial.X + 1

/-- R51 item 4: a round multiplies by x modulo P(x), and the transform multiplies `a ^ w` by x^32 modulo P(x). -/
def Obligations.TransformIsPolynomialDivision : Prop :=
  (∀ v : Word, polyOf (divRound v) = (polyOf v * Polynomial.X) %ₘ dividerPoly) ∧
  ∀ a w : Word, polyOf (transform a w) = (polyOf (a ^^^ w) * Polynomial.X ^ 32) %ₘ dividerPoly

/-- R51 item 5: the transform loses nothing, so its result is 0 only by cancellation. -/
def Obligations.TransformIsBijective : Prop :=
  Function.Bijective (fun v : Word => transform 0#32 v) ∧
  (∀ a1 w1 a2 w2 : Word, a1 ^^^ w1 ≠ a2 ^^^ w2 → transform a1 w1 ≠ transform a2 w2) ∧
  ∀ a w : Word, transform a w = 0#32 ↔ a = w

/-- R55: the byte-serial view of the transform, the word's most significant byte first. -/
def Obligations.ByteSerialTransform : Prop :=
  ∀ a w : Word, transform a w =
    divByte (divByte (divByte (divByte a (w.extractLsb' 24 8)) (w.extractLsb' 16 8)) (w.extractLsb' 8 8))
      (w.extractLsb' 0 8)

/-- R26: the first byte of a chunk is divided last. -/
def Obligations.ChunkIsDividedLastByteFirst : Prop :=
  ∀ (a : Word) (c0 c1 c2 c3 : Byte),
    transform a (leWord c0 c1 c2 c3) = divByte (divByte (divByte (divByte a c3) c2) c1) c0

/-! ## The step, the port and its refusals -/

/-- A step takes the host's next command word and performs the command it decodes to, after the input is consumed; with the
word placed by `withFetchWord` the next step performs it (R18, R32, R42). -/
def Obligations.StepRunsTheDecodedCommand : Prop :=
  (∀ (s : State) (w : Command) (rest : List HostInput) (i : Instr),
    s.inputs = .command w :: rest → decode w = .ok i → step s = exec i { s with inputs := rest }) ∧
  ∀ (s : State) (i : Instr), step (s.withFetchWord 40 (encode i).toNat) = exec i s

/-- R76 and R77: the port refuses a command word in exactly three cases, the first of RF1, RF2, RF3 that applies is the one
reported, and it records the command word (and `CNT` for RF3). `op` and `data` as in R35. -/
def Obligations.RefusesInExactlyThreeCases : Prop :=
  (∀ (w : Command) (s : State) (r : Refusal), perform w s = .refused r ↔
    (7 ≤ (w >>> 32).toNat ∧ r = .reservedOp w) ∨
    ((((w >>> 32).toNat ∈ [0, 1, 5, 6] ∧ w.setWidth 32 ≠ 0#32) ∨
      ((w >>> 32).toNat = 4 ∧ w.setWidth 32 >>> 8 ≠ 0#32)) ∧ r = .nonzeroReservedData w) ∨
    ((w >>> 32).toNat ∈ [2, 3] ∧ s.cnt ≠ 0#2 ∧ r = .partialWord w s.cnt)) ∧
  ∀ s : State, s.cnt = 2#2 →
    perform 0x300000000#36 s = .refused (.partialWord 0x300000000#36 2#2) ∧
    perform 0x700000000#36 s = .refused (.reservedOp 0x700000000#36)

/-- R72: no step faults, and every command that decodes and meets its state precondition completes with one response. -/
def Obligations.CommandsCompleteNormally : Prop :=
  (∀ (s : State) (f : Fault), step s ≠ .fault f) ∧
  ∀ (w : Command) (s : State) (i : Instr), decode w = .ok i →
    (i.mnemonic = .load ∨ i.mnemonic = .word → s.cnt = 0#2) →
    ∃ t v, perform w s = .next t ∧ t.responses = s.responses ++ [v]

/-- R93: the host's duties at the command port are exactly what keeps a step from being refused. For a command that reset
cancels the duty is the same, and the step is refused where it is not met; that is the model's choice, which neither R84 nor
R93 gives (assumption 4, DESIGN CHOICE). -/
def Obligations.DutyIsWhatAvoidsRefusal : Prop :=
  ∀ s : State, hostDuty s = true ↔ ∃ t, step s = .next t

/-- R78: a refusal is final. The mark stays whatever is done next, a marked run shows no registers and no response more than
it had, and a run of the machine that was refused is refused for the same reason however many steps more are asked for. That
the mark is tied to the refusal of `runSteps`, and that a marked run keeps its responses and has no registers (R92), are the
model's reading (assumption 3, DEDUCED). -/
def Obligations.RefusalIsFinal : Prop :=
  (∀ (r : Run) (c : Refusal), r.mark = some c →
    ∀ n, (r.advances n).mark = some c ∧ (r.advances n).observation = ⟨r.observation.responses, none⟩) ∧
  (∀ (s : State) (c : Refusal) (n : Nat), (Run.advances n ⟨s, none⟩).mark = some c ↔ runSteps n s = .refused c) ∧
  ∀ (s : State) (c : Refusal) (n k : Nat), runSteps n s = .refused c → runSteps (n + k) s = .refused c

/-- R83 and R88: with nothing issued the block holds its state, and a wait of the host only passes. -/
def Obligations.IdleBlockHoldsItsState : Prop :=
  (∀ s : State, s.inputs = [] → step s = .next s) ∧
  ∀ (s : State) (rest : List HostInput), s.inputs = .wait :: rest → step s = .next { s with inputs := rest }

/-- R88: nothing the host does between commands changes a result. Taking every wait out of a run's inputs leaves its outcome
as it is. Losses of power are excluded: two of them may leave different values (U7), so the statement rests on no free
value. -/
def Obligations.WaitingChangesNoResult : Prop :=
  ∀ (s : State) (l : List HostInput), .powerLoss ∉ l →
    runInputs l s = runInputs (l.filter (fun x => decide (x ≠ .wait))) s

/-- R32: the outcome of a run of command words is the left fold of the command rules over the sequence, from the state
before; each command reads what the earlier ones left. -/
def Obligations.RunIsTheFoldOfTheCommands : Prop :=
  ∀ (ws : List Command) (s : State),
    runInputs (ws.map .command) s = performAll ws { s with inputs := [] }

/-- R36 and R92: every command performed returns exactly one response, so a run of n commands adds n to the observation, and
none of the earlier responses changes. -/
def Obligations.OneResponsePerCommand : Prop :=
  (∀ (i : Instr) (s t : State), exec i s = .next t → ∃ v, t.responses = s.responses ++ [v]) ∧
  ∀ (is : List Instr) (s t : State), issue is s = .next t →
    ∃ vs : List Word, vs.length = is.length ∧ t.responses = s.responses ++ vs

/-- R92: a run that is not refused shows one response per command word, its own only, whatever was answered before it, and the
final registers; a run refused at a word shows, however much longer it is driven, the responses of the words before it and
nothing from the refused one on: no response and no registers. The mark is R78's. That it is the reason `perform` gives, and
that a marked run keeps the earlier responses and has no registers, are the model's reading (assumption 3, DEDUCED); that the
responses stand in a field of the state, which `Run.start` empties, is its choice (assumption 1, DESIGN CHOICE). -/
def Obligations.RunObservation : Prop :=
  (∀ (s : State) (ws : List Command) (t : State), runInputs (ws.map .command) s = .next t →
    ∃ vs : List Word, vs.length = ws.length ∧ t.responses = s.responses ++ vs ∧
      ((Run.start (ws.map .command) s).advances ws.length).mark = none ∧
      ((Run.start (ws.map .command) s).advances ws.length).observation = ⟨vs, some t.regs⟩) ∧
  ∀ (s : State) (pre : List Command) (w : Command) (post : List Command) (t : State) (c : Refusal) (n : Nat),
    runInputs (pre.map .command) s = .next t → perform w t = .refused c → pre.length < n →
    ∃ vs : List Word, vs.length = pre.length ∧ t.responses = s.responses ++ vs ∧
      ((Run.start ((pre ++ w :: post).map .command) s).advances n).mark = some c ∧
      ((Run.start ((pre ++ w :: post).map .command) s).advances n).observation = ⟨vs, none⟩

/-- R68: a command's effect on the registers, its response and its refusal are functions of the registers and the command
alone, whatever was answered before and whatever is still to come. -/
def Obligations.CommandDependsOnRegistersOnly : Prop :=
  ∀ (i : Instr) (s t : State), s.regs = t.regs →
    (∃ s' t' v, exec i s = .next s' ∧ exec i t = .next t' ∧ s'.regs = t'.regs ∧
      s'.responses = s.responses ++ [v] ∧ t'.responses = t.responses ++ [v]) ∨
    ∃ r, exec i s = .refused r ∧ exec i t = .refused r

/-! ## Reset (10_state.md R23, 70_reset_and_hazards.md) -/

/-- R23: the registers after reset; they are what a SEED leaves, from any state, so whatever the host does right after reset,
but for a loss of power (U7), leaves the same registers, or the same refusal, as it does after a SEED. That a reset during an
illegal command is refused, in either run, is the model's choice (assumption 4). -/
def Obligations.ResetValues : Prop :=
  State.reset.acc = 0xFFFFFFFF#32 ∧ State.reset.asm = 0x000000#24 ∧ State.reset.cnt = 0#2 ∧
  (∀ s t : State, exec .seed s = .next t → t.regs = State.reset.regs) ∧
  ∀ l : List HostInput, .powerLoss ∉ l →
    SameRegs (runInputs l State.reset) (runInputs (.command 0x100000000#36 :: l) State.reset)

/-- R84: reset puts the registers to the values of R23 and touches nothing else; a command that the host may issue and that
reset cancels leaves the same and has no response; the next input is then taken from that state. -/
def Obligations.ResetFromAnyState : Prop :=
  (∀ (s : State) (rest : List HostInput), s.inputs = .reset :: rest →
    step s = .next { s with acc := 0xFFFFFFFF#32, asm := 0#24, cnt := 0#2, inputs := rest }) ∧
  ∀ (s : State) (w : Command) (rest : List HostInput), s.inputs = .cancelled w :: rest → commandDuty s w = true →
    step s = .next { s with acc := 0xFFFFFFFF#32, asm := 0#24, cnt := 0#2, inputs := rest }

/-- R85: whatever the host does after it, but for a loss of power (U7), a reset and a SEED leave the same registers and the
same refusals. R85 speaks of commands; that a reset during an illegal command is refused, in either run, is the model's
choice (assumption 4). -/
def Obligations.SeedActsAsReset : Prop :=
  ∀ (s : State) (l : List HostInput), .powerLoss ∉ l →
    SameRegs (runInputs (.reset :: l) s) (runInputs (.command 0x100000000#36 :: l) s)

/-- U7 (the free values are the model's, assumption 5): a loss of power returns no response and takes no later input, and
from whatever values it leaves, a SEED gives the reset values. -/
def Obligations.SeedRecoversFromPowerLoss : Prop :=
  (∀ (s : State) (rest : List HostInput), s.inputs = .powerLoss :: rest →
    ∃ t, step s = .next t ∧ t.inputs = rest ∧ t.responses = s.responses) ∧
  ∀ s : State, ∃ t, runInputs [.powerLoss, .command 0x100000000#36] s = .next t ∧ t.regs = State.reset.regs

/-! ## The commands, each with its word, its whole next state and its corner cases -/

/-- READ (R70): its word; in every state it responds with `ACC`, without the pending bytes, and changes nothing else; asked
again it answers the same. -/
def Obligations.ReadResult : Prop :=
  encode .read = 0x000000000#36 ∧
  (∀ s : State, exec .read s = .next { s with responses := s.responses ++ [s.acc] }) ∧
  (∀ s : State, ∃ t u, exec .read s = .next t ∧ exec .read t = .next u ∧
    u = { s with responses := s.responses ++ [s.acc, s.acc] }) ∧
  ∀ s : State, ∃ t, issue (streamCommands [0x11#8, 0x22#8, 0x33#8, 0x44#8, 0x55#8, 0x66#8] ++ [.read]) s = .next t ∧
    t.responses.getLast? = some 0x3DA1135C#32

/-- STAT (R71): its word; in every state the response is 0 in bits 31:26, `CNT` in bits 25:24 and `ASM` in bits 23:0, and
nothing else changes; it is idempotent, and 0 right after SEED, FINISH, reset or a completed chunk. -/
def Obligations.StatResult : Prop :=
  encode .stat = 0x600000000#36 ∧
  (∀ s : State, ∃ v, exec .stat s = .next { s with responses := s.responses ++ [v] } ∧
    v.extractLsb' 26 6 = 0#6 ∧ v.extractLsb' 24 2 = s.cnt ∧ v.extractLsb' 0 24 = s.asm) ∧
  (∀ s t u : State, exec .stat s = .next t → exec .stat t = .next u →
    u.regs = s.regs ∧ ∃ v, u.responses = s.responses ++ [v, v]) ∧
  (∀ (i : Instr) (s t u : State),
    (i = .seed ∨ i = .finish ∨ (i.mnemonic = .byte ∧ s.cnt = 3#2)) → exec i s = .next t → exec .stat t = .next u →
    u.responses = t.responses ++ [0x00000000#32]) ∧
  (∃ u, exec .stat State.reset = .next u ∧ u.responses = [0x00000000#32]) ∧
  ∀ s : State, ∃ t, issue [.seed, .byte 0x11#8, .byte 0x22#8, .byte 0x33#8, .stat] s = .next t ∧
    t.responses.getLast? = some 0x03332211#32

/-- SEED (R58): its word; in every state the seed in `ACC`, no pending bytes, the seed as response; after reset it changes
no register, and two SEEDs leave what one leaves. -/
def Obligations.SeedResult : Prop :=
  encode .seed = 0x100000000#36 ∧
  (∀ s : State, exec .seed s =
    .next { s with acc := 0xFFFFFFFF#32, asm := 0#24, cnt := 0#2, responses := s.responses ++ [0xFFFFFFFF#32] }) ∧
  (∀ t, exec .seed State.reset = .next t → t.regs = State.reset.regs) ∧
  ∀ s t u : State, exec .seed s = .next t → exec .seed t = .next u → u.regs = t.regs

/-- LOAD (R53): its word; at a chunk boundary the operand goes to `ACC` and is the response; with bytes pending it is refused
with RF3. A LOAD of the seed in a state that meets R17 leaves what SEED leaves; a READ after it returns the operand. -/
def Obligations.LoadResult : Prop :=
  (∀ v : Word, encode (.load v) = 0x2#4 ++ v) ∧
  (∀ (v : Word) (s : State), s.cnt = 0#2 →
    exec (.load v) s = .next { s with acc := v, responses := s.responses ++ [v] }) ∧
  (∀ (v : Word) (s : State), s.cnt ≠ 0#2 → exec (.load v) s = .refused (.partialWord (encode (.load v)) s.cnt)) ∧
  (∀ s t u : State, s.LanesClear → exec (.load 0xFFFFFFFF#32) s = .next t → exec .seed s = .next u → t.regs = u.regs) ∧
  (∀ (v : Word) (s t u : State), exec (.load v) s = .next t → exec .read t = .next u →
    u.responses = t.responses ++ [v]) ∧
  ∀ s : State, s.acc = 0x3DA1135C#32 → s.cnt = 0#2 →
    exec (.load 0x12345678#32) s =
      .next { s with acc := 0x12345678#32, responses := s.responses ++ [0x12345678#32] }

/-- WORD (R54): its word; at a chunk boundary `ACC` becomes `T(ACC, w)`, which is the response, and `ASM` and `CNT` stay; with
bytes pending it is refused with RF3; the corner cases and the source's reference vector. -/
def Obligations.WordResult : Prop :=
  (∀ v : Word, encode (.word v) = 0x3#4 ++ v) ∧
  (∀ (v : Word) (s : State), s.cnt = 0#2 →
    exec (.word v) s =
      .next { s with acc := divRound^[32] (s.acc ^^^ v), responses := s.responses ++ [divRound^[32] (s.acc ^^^ v)] }) ∧
  (∀ (v : Word) (s : State), s.cnt ≠ 0#2 → exec (.word v) s = .refused (.partialWord (encode (.word v)) s.cnt)) ∧
  (∀ s : State, s.cnt = 0#2 → ∃ t, exec (.word s.acc) s = .next t ∧ t.acc = 0x00000000#32) ∧
  ∀ s : State, s.cnt = 0#2 →
    (s.acc = 0x00000000#32 → ∃ t, exec (.word 0x00000000#32) s = .next t ∧ t.acc = 0x00000000#32) ∧
    (s.acc = 0xFFFFFFFF#32 → ∃ t, exec (.word 0x00000000#32) s = .next t ∧ t.acc = 0xC704DD7B#32) ∧
    (s.acc = 0x00000000#32 → ∃ t, exec (.word 0x00000001#32) s = .next t ∧ t.acc = 0x04C11DB7#32) ∧
    (s.acc = 0x00000000#32 → ∃ t, exec (.word 0x80000000#32) s = .next t ∧ t.acc = 0xA6E63D1D#32) ∧
    (s.acc = 0xFFFFFFFF#32 → ∃ t, exec (.word 0x12341234#32) s = .next t ∧ t.acc = 0xDA622CDD#32 ∧
      t.responses = s.responses ++ [0xDA622CDD#32])

/-- BYTE (R59): its word; with fewer than 3 bytes pending the byte goes to lane `CNT`, the other lanes and `ACC` stay, `CNT`
is one more and the response is `ACC`; with 3 pending the completed word, the new byte in its bits 31:24, is transformed, no
byte is left pending and the response is the new `ACC`. It completes in every state for every byte. -/
def Obligations.ByteResult : Prop :=
  (∀ b : Byte, encode (.byte b) = 0x4#4 ++ 0x000000#24 ++ b) ∧
  (∀ (b : Byte) (s : State), s.cnt ≠ 3#2 →
    ∃ asm', exec (.byte b) s =
        .next { s with asm := asm', cnt := s.cnt + 1#2, responses := s.responses ++ [s.acc] } ∧
      asmLane asm' s.cnt.toNat = b ∧ ∀ k < 3, k ≠ s.cnt.toNat → asmLane asm' k = asmLane s.asm k) ∧
  (∀ (b : Byte) (s : State), s.cnt = 3#2 →
    exec (.byte b) s = .next { s with
      acc := transform s.acc (leWord (asmLane s.asm 0) (asmLane s.asm 1) (asmLane s.asm 2) b), asm := 0#24, cnt := 0#2,
      responses := s.responses ++ [transform s.acc (leWord (asmLane s.asm 0) (asmLane s.asm 1) (asmLane s.asm 2) b)] }) ∧
  ∀ s : State, s.acc = 0xFFFFFFFF#32 → s.asm = 0x332211#24 → s.cnt = 3#2 →
    exec (.byte 0x44#8) s = .next { s with
      acc := 0x8695C2DC#32, asm := 0#24, cnt := 0#2, responses := s.responses ++ [0x8695C2DC#32] }

/-- FINISH (R60): its word; with bytes pending the zero-extended `ASM` is transformed, otherwise `ACC` stays; either way no
byte is left pending and the response is `ACC`; a second FINISH changes no register; the example. -/
def Obligations.FinishResult : Prop :=
  encode .finish = 0x500000000#36 ∧
  (∀ s : State, s.cnt ≠ 0#2 →
    exec .finish s = .next { s with
      acc := transform s.acc (0#8 ++ s.asm), asm := 0#24, cnt := 0#2,
      responses := s.responses ++ [transform s.acc (0#8 ++ s.asm)] }) ∧
  (∀ s : State, s.cnt = 0#2 →
    exec .finish s = .next { s with asm := 0#24, cnt := 0#2, responses := s.responses ++ [s.acc] }) ∧
  (∀ s t u : State, exec .finish s = .next t → exec .finish t = .next u →
    u.regs = t.regs ∧ u.responses = t.responses ++ [t.acc]) ∧
  (∃ t, issue [.seed, .byte 0x00#8, .finish] State.reset = .next t ∧ t.acc = 0xC704DD7B#32) ∧
  ∀ s : State, s.acc = 0x8695C2DC#32 → s.asm = 0x006655#24 → s.cnt = 2#2 →
    exec .finish s = .next { s with
      acc := 0x3DA1135C#32, asm := 0#24, cnt := 0#2, responses := s.responses ++ [0x3DA1135C#32] }

/-! ## Rules of the whole machine (10_state.md) -/

/-- R14: `ACC` is changed only by SEED, LOAD, WORD, the BYTE that brings the fourth byte and a FINISH with bytes pending, and
every command but STAT responds with the `ACC` it leaves. -/
def Obligations.AccumulatorWritersAndResponses : Prop :=
  (∀ (i : Instr) (s t : State), exec i s = .next t → t.acc ≠ s.acc →
    i.mnemonic = .seed ∨ i.mnemonic = .load ∨ i.mnemonic = .word ∨ (i.mnemonic = .byte ∧ s.cnt = 3#2) ∨
      (i.mnemonic = .finish ∧ s.cnt ≠ 0#2)) ∧
  ∀ (i : Instr) (s t : State), exec i s = .next t → i ≠ .stat → t.responses = s.responses ++ [t.acc]

/-- R16: `CNT` is 0 after SEED and FINISH, one more modulo 4 after BYTE, and otherwise stays; LOAD and WORD are refused while
it is not 0, and STAT reads it. -/
def Obligations.CountOfPendingBytes : Prop :=
  (∀ s t : State, exec .seed s = .next t ∨ exec .finish s = .next t → t.cnt = 0#2) ∧
  (∀ (b : Byte) (s t : State), exec (.byte b) s = .next t → t.cnt.toNat = (s.cnt.toNat + 1) % 4) ∧
  (∀ (i : Instr) (s t : State), exec i s = .next t → i.mnemonic ∈ [.read, .load, .word, .stat] → t.cnt = s.cnt) ∧
  (∀ (i : Instr) (s : State), i.mnemonic ∈ [.load, .word] →
    ((∃ r, exec i s = .refused r) ↔ s.cnt ≠ 0#2)) ∧
  ∀ s t : State, exec .stat s = .next t → ∃ v, t.responses = s.responses ++ [v] ∧ v.extractLsb' 24 2 = s.cnt

/-- R15: SEED, FINISH and the BYTE that completes a chunk clear `ASM`; any other BYTE writes one lane of it; READ, LOAD, WORD
and STAT leave it, and STAT reads it. -/
def Obligations.PendingBytesRegister : Prop :=
  (∀ (i : Instr) (s t : State), exec i s = .next t →
    i = .seed ∨ i = .finish ∨ (i.mnemonic = .byte ∧ s.cnt = 3#2) → t.asm = 0#24) ∧
  (∀ (b : Byte) (s t : State), exec (.byte b) s = .next t → s.cnt ≠ 3#2 →
    ∀ k < 3, asmLane t.asm k = if k = s.cnt.toNat then b else asmLane s.asm k) ∧
  (∀ (i : Instr) (s t : State), exec i s = .next t → i.mnemonic ∈ [.read, .load, .word, .stat] → t.asm = s.asm) ∧
  ∀ s t : State, exec .stat s = .next t → ∃ v, t.responses = s.responses ++ [v] ∧ v.extractLsb' 0 24 = s.asm

/-- The frame of every command: it consumes no later input and counts no loss of power, its only trace outside the registers
is its one response, and READ and STAT write no register, LOAD and WORD only `ACC`, a BYTE that does not complete a chunk not
`ACC` (R30, R36). -/
def Obligations.CommandFrame : Prop :=
  ∀ (i : Instr) (s t : State), exec i s = .next t →
    t.inputs = s.inputs ∧ t.powerLosses = s.powerLosses ∧ (∃ v, t.responses = s.responses ++ [v]) ∧
    (i.mnemonic ∈ [.read, .stat] → t.regs = s.regs) ∧
    (i.mnemonic ∈ [.load, .word] → t.asm = s.asm ∧ t.cnt = s.cnt) ∧
    (i.mnemonic = .byte → s.cnt ≠ 3#2 → t.acc = s.acc)

/-- R17: reset establishes the assembler invariant, every command preserves it, SEED and FINISH establish it from any state,
and under it the zero-extended `ASM` is the zero-padded tail. -/
def Obligations.AssemblerInvariantKept : Prop :=
  State.reset.LanesClear ∧
  (∀ (i : Instr) (s t : State), s.LanesClear → exec i s = .next t → t.LanesClear) ∧
  (∀ (i : Instr) (s t : State), i = .seed ∨ i = .finish → exec i s = .next t → t.LanesClear) ∧
  ∀ (s : State) (k : Nat), s.LanesClear → s.cnt.toNat ≤ k → k < 4 → (tailWord s.asm).extractLsb' (8 * k) 8 = 0#8

/-- The invariant of runs without loss of power holds at reset (R17, R23). -/
def Obligations.ResetMeetsTheInvariant : Prop :=
  State.reset.Inv

/-- Every step, whatever the outside world does but for a loss of power, keeps the invariant (R17). -/
def Obligations.StepKeepsTheInvariant : Prop :=
  ∀ s t : State, s.Inv → step s = .next t → t.Inv

/-! ## The stream commands compute the stream function (41_stream.md) -/

/-- R61: from any state, SEED, the bytes and FINISH end with the stream function's value in `ACC` and as the last response,
and no byte pending. -/
def Obligations.StreamCommandsComputeTheStream : Prop :=
  ∀ (s : State) (buf : List Byte), ∃ t vs,
    issue (streamCommands buf) s = .next t ∧
    t.acc = stream buf ∧ t.asm = 0#24 ∧ t.cnt = 0#2 ∧
    t.responses = s.responses ++ vs ++ [stream buf] ∧ vs.length = buf.length + 1

/-- The invariant of R61's proof: after SEED and the bytes, `CNT` is their number modulo 4, `ASM` holds the last ones
little-endian with zeros above, and `ACC` is the value of the whole chunks alone (R61, R89). -/
def Obligations.StreamProgress : Prop :=
  ∀ (s : State) (buf : List Byte), ∃ t,
    issue (.seed :: feedBytes buf) s = .next t ∧
    t.cnt.toNat = buf.length % 4 ∧
    t.acc = stream (buf.take (4 * (buf.length / 4))) ∧
    ∀ k < 3, asmLane t.asm k = (buf.drop (4 * (buf.length / 4))).getD k 0#8

/-- R62: an absent buffer is `SEED ; FINISH` and gives the seed whatever the length, an empty one does the same, and a present
buffer is its first `length` bytes: between SEED and FINISH the host issues exactly `length` BYTE commands, one for each. -/
def Obligations.StreamCallIsTheCommandSequence : Prop :=
  (∀ (s : State) (buf : Option (List Byte)) (n : Nat) (v : Word), streamCall buf n = some v →
    ∃ is t, streamCallCommands buf n = some is ∧ issue is s = .next t ∧
      t.responses.getLast? = some v ∧ t.acc = v) ∧
  (∀ n, streamCall none n = some 0xFFFFFFFF#32 ∧ streamCallCommands none n = some [.seed, .finish]) ∧
  (streamCall (some []) 0 = some 0xFFFFFFFF#32 ∧ streamCallCommands (some []) 0 = some [.seed, .finish]) ∧
  ∀ (buf : List Byte) (n : Nat), n ≤ buf.length →
    streamCall (some buf) n = some (stream (buf.take n)) ∧
    streamCallCommands (some buf) n = some (.seed :: ((buf.take n).map .byte ++ [.finish])) ∧
    ((buf.take n).map Instr.byte).length = n

/-- R63: at a chunk boundary, WORD of a chunk's word leaves the same registers as its four BYTEs, and the last responses are
equal. So whole chunks, each fed with WORD or with its four BYTEs as the host likes, and then the tail with BYTE, between
SEED and FINISH, give the stream function of all the bytes. -/
def Obligations.WordEqualsItsFourBytes : Prop :=
  (∀ (s : State) (c0 c1 c2 c3 : Byte), s.cnt = 0#2 → s.LanesClear → ∃ t u,
    issue (wordle c0 c1 c2 c3) s = .next t ∧ issue (feedBytes [c0, c1, c2, c3]) s = .next u ∧
    t.regs = u.regs ∧ t.responses.getLast? = u.responses.getLast? ∧ t.responses = s.responses ++ [t.acc]) ∧
  ∀ (s : State) (chunks : List (Bool × Byte × Byte × Byte × Byte)) (tail buf : List Byte),
    buf = chunks.flatMap (fun (_, c0, c1, c2, c3) => [c0, c1, c2, c3]) ++ tail → ∃ t,
    issue (.seed ::
      (chunks.flatMap (fun (asWord, c0, c1, c2, c3) =>
        if asWord then [.word (leWord c0 c1 c2 c3)] else [.byte c0, .byte c1, .byte c2, .byte c3]) ++
      tail.map .byte ++ [.finish])) s = .next t ∧
    t.acc = stream buf ∧ t.asm = 0#24 ∧ t.cnt = 0#2 ∧ t.responses.getLast? = some (stream buf)

/-- R64: a short tail equals its zero-padded chunk, so the result does not determine the length. -/
def Obligations.TailEqualsItsPaddedChunk : Prop :=
  (∀ buf : List Byte, buf.length % 4 ≠ 0 → stream buf = stream (buf ++ List.replicate (4 - buf.length % 4) 0#8)) ∧
  stream [0x11#8] = 0x8FD41BBC#32 ∧ stream [0x11#8, 0#8, 0#8, 0#8] = 0x8FD41BBC#32 ∧
  stream [0#8] = 0xC704DD7B#32 ∧ stream [0#8, 0#8] = 0xC704DD7B#32 ∧ stream [0#8, 0#8, 0#8] = 0xC704DD7B#32 ∧
  stream [0#8, 0#8, 0#8, 0#8] = 0xC704DD7B#32 ∧ stream [] = 0xFFFFFFFF#32

/-- R65: a stream of n bytes performs ceil(n / 4) word transforms, floor(n / 4) of them before FINISH. The count is a function
beside the step (assumption 7, the model's choice), so the other two clauses tie it to what a command does: one that the
count gives no transform to leaves `ACC`, unless it is SEED or LOAD; any other has one, of `ACC` and its own word: WORD's
operand, the chunk that BYTE completes, or the zero-padded tail of FINISH. -/
def Obligations.StreamTransformCount : Prop :=
  (∀ (s : State) (buf : List Byte),
    transformsOver (streamCommands buf) s = (buf.length + 3) / 4 ∧
    transformsOver (.seed :: feedBytes buf) s = buf.length / 4) ∧
  (∀ (i : Instr) (s t : State), exec i s = .next t → transformsOf i s = 0 →
    (i = .seed ∧ t.acc = 0xFFFFFFFF#32) ∨ (∃ v, i = .load v ∧ t.acc = v) ∨
    (i.mnemonic ∈ [.read, .byte, .finish, .stat] ∧ t.acc = s.acc)) ∧
  (∀ (i : Instr) (s t : State), exec i s = .next t → transformsOf i s ≠ 0 →
    transformsOf i s = 1 ∧
    ((∃ v, i = .word v ∧ t.acc = transform s.acc v) ∨
     (∃ b, i = .byte b ∧ s.cnt = 3#2 ∧
        t.acc = transform s.acc (leWord (asmLane s.asm 0) (asmLane s.asm 1) (asmLane s.asm 2) b)) ∨
     (i = .finish ∧ s.cnt ≠ 0#2 ∧ t.acc = transform s.acc (0#8 ++ s.asm)))) ∧
  stream [1#8, 2#8, 3#8, 4#8, 5#8, 6#8, 7#8, 8#8] =
    transform (transform 0xFFFFFFFF#32 0x04030201#32) 0x08070605#32

/-- R66 (as 90_conflicts.md C1 corrects the source): a padded buffer followed by its own result gives 0; without the padding
it does when the length is a multiple of 4, and not in general. -/
def Obligations.StreamCancelsItself : Prop :=
  (∀ buf : List Byte, stream (padded buf ++ leBytes (stream buf)) = 0x00000000#32) ∧
  (∀ buf : List Byte, buf.length % 4 = 0 → stream (buf ++ leBytes (stream buf)) = 0x00000000#32) ∧
  stream ([0x11#8, 0x22#8, 0x33#8, 0x44#8, 0x55#8, 0x66#8] ++
    leBytes (stream [0x11#8, 0x22#8, 0x33#8, 0x44#8, 0x55#8, 0x66#8])) = 0x1C39E1A0#32

/-- R67: a FINISH in the middle of a stream acts as zero padding to the next chunk boundary. -/
def Obligations.FinishMidStreamPads : Prop :=
  ∀ (s : State) (b1 b2 : List Byte), ∃ t,
    issue (.seed :: (feedBytes b1 ++ .finish :: (feedBytes b2 ++ [.finish]))) s = .next t ∧
    t.acc = stream (padded b1 ++ b2) ∧ t.responses.getLast? = some (stream (padded b1 ++ b2)) ∧
    t.asm = 0#24 ∧ t.cnt = 0#2

/-- R69: a context saved with READ and STAT is brought back, from any state, by the commands made of the two responses. -/
def Obligations.ContextIsSavedAndRestored : Prop :=
  ∀ s u : State, s.LanesClear → ∃ t a st v,
    issue saveContext s = .next t ∧ t.responses = s.responses ++ [a, st] ∧ t.regs = s.regs ∧
    issue (restoreContext a st) u = .next v ∧ v.regs = s.regs

/-- R56: the source's `transform` is `LOAD a ; WORD w` at a chunk boundary, which leaves `ASM` and `CNT`. -/
def Obligations.TransformIsLoadThenWord : Prop :=
  ∀ (s : State) (a w : Word), s.cnt = 0#2 →
    issue (xform a w) s = .next { s with
      acc := transform a w, inputs := [], responses := s.responses ++ [a, transform a w] }

/-! ## The assembler (30_encoding.md R45, R46) -/

/-- R45 and R46: a line of each name stands for commands exactly when it has the operands the rule asks for, a word operand
below 2^32 and a byte operand below 256, and then for exactly the commands written here; and a line of a text is encoded
exactly when it stands for commands, as the words of those. -/
def Obligations.AssemblerTakesExactlyWellFormedLines : Prop :=
  (∀ (ops : List Nat) (is : List Instr),
    (expandLine ⟨.command .read, ops⟩ = some is ↔ ops = [] ∧ is = [.read]) ∧
    (expandLine ⟨.command .seed, ops⟩ = some is ↔ ops = [] ∧ is = [.seed]) ∧
    (expandLine ⟨.command .load, ops⟩ = some is ↔
      ∃ x < 2 ^ 32, ops = [x] ∧ is = [.load (BitVec.ofNat 32 x)]) ∧
    (expandLine ⟨.command .word, ops⟩ = some is ↔
      ∃ x < 2 ^ 32, ops = [x] ∧ is = [.word (BitVec.ofNat 32 x)]) ∧
    (expandLine ⟨.command .byte, ops⟩ = some is ↔
      ∃ x < 256, ops = [x] ∧ is = [.byte (BitVec.ofNat 8 x)]) ∧
    (expandLine ⟨.command .finish, ops⟩ = some is ↔ ops = [] ∧ is = [.finish]) ∧
    (expandLine ⟨.command .stat, ops⟩ = some is ↔ ops = [] ∧ is = [.stat]) ∧
    (expandLine ⟨.xform, ops⟩ = some is ↔
      ∃ a < 2 ^ 32, ∃ w < 2 ^ 32, ops = [a, w] ∧ is = [.load (BitVec.ofNat 32 a), .word (BitVec.ofNat 32 w)]) ∧
    (expandLine ⟨.wordle, ops⟩ = some is ↔
      ∃ c0 < 256, ∃ c1 < 256, ∃ c2 < 256, ∃ c3 < 256, ops = [c0, c1, c2, c3] ∧
        is = [.word (leWord (BitVec.ofNat 8 c0) (BitVec.ofNat 8 c1) (BitVec.ofNat 8 c2) (BitVec.ofNat 8 c3))]) ∧
    (expandLine ⟨.stream, ops⟩ = some is ↔
      (∀ x ∈ ops, x < 256) ∧ is = .seed :: (ops.map (fun x => .byte (BitVec.ofNat 8 x)) ++ [.finish]))) ∧
  ∀ (cs : List Char) (l : SourceLine) (ws : List Command), parseLine cs = .ok (some l) →
    (assembleLine cs = .ok ws ↔ ∃ is, expandLine l = some is ∧ ws = is.map encode)

/-- R45: what the assembler encodes is a list of legal command words, each of which the block decodes. -/
def Obligations.AssembledWordsDecode : Prop :=
  ∀ (text : List (List Char)) (ws : List Command), assemble text = .ok ws →
    ∀ w ∈ ws, w.wellFormed = true ∧ ∃ i, decode w = .ok i ∧ encode i = w
end

