-- ==== Sys2Proof/Laws/Encoding.lean ====
section
/-! SUPPORT. The two fields of a command word as numbers (R35), so that facts about encodings are facts of arithmetic. -/

namespace Sys2Proof

/-- `op` is the quotient of the word by 2^32 (R35, R45). -/
theorem Command.op_toNat (w : Command) : (Command.op w).toNat = w.toNat / 2 ^ 32 := by
  have h : w.toNat < 2 ^ 36 := w.isLt
  simp only [Command.op, BitVec.extractLsb'_toNat, Nat.shiftRight_eq_div_pow]
  omega

/-- `data` is the remainder of the word by 2^32 (R35, R45). -/
theorem Command.data_toNat (w : Command) : (Command.data w).toNat = w.toNat % 2 ^ 32 := by
  simp only [Command.data, BitVec.extractLsb'_toNat, Nat.shiftRight_zero]

/-- A word made of an op and a data field is `op * 2^32 + data` (R45). -/
theorem command_toNat (op : BitVec 4) (data : BitVec 32) :
    (op ++ data : Command).toNat = op.toNat * 2 ^ 32 + data.toNat := by
  have h : data.toNat < 2 ^ 32 := data.isLt
  rw [BitVec.toNat_append, ← Nat.shiftLeft_add_eq_or_of_lt h, Nat.shiftLeft_eq]

/-- The op of a word made of an op and a data field. -/
@[simp] theorem op_append (op : BitVec 4) (data : BitVec 32) : Command.op (op ++ data : Command) = op := by
  have h : data.toNat < 2 ^ 32 := data.isLt
  apply BitVec.eq_of_toNat_eq
  rw [Command.op_toNat, command_toNat]
  omega

/-- The data of a word made of an op and a data field. -/
@[simp] theorem data_append (op : BitVec 4) (data : BitVec 32) : Command.data (op ++ data : Command) = data := by
  have h : data.toNat < 2 ^ 32 := data.isLt
  apply BitVec.eq_of_toNat_eq
  rw [Command.data_toNat, command_toNat]
  omega

/-- A command word is its two fields put together. -/
theorem op_append_data (w : Command) : (Command.op w ++ Command.data w : Command) = w := by
  apply BitVec.eq_of_toNat_eq
  rw [command_toNat, Command.op_toNat, Command.data_toNat]
  omega

/-- The op as the statements and the checks of WellFormed write it. -/
theorem Command.shiftRight_toNat (w : Command) : (w >>> 32).toNat = (Command.op w).toNat := by
  rw [Command.op_toNat, BitVec.toNat_ushiftRight, Nat.shiftRight_eq_div_pow]

/-- The data as the statements write it. -/
theorem Command.setWidth_data (w : Command) : w.setWidth 32 = Command.data w := by
  apply BitVec.eq_of_toNat_eq
  rw [Command.data_toNat, BitVec.toNat_setWidth]

end Sys2Proof
end

