-- ==== Sys2Proof/Laws/Operands.lean ====
section
/-! SUPPORT. The byte lanes of `ASM` (10_state.md R15), so that no proof goes down to the masks of `putLane`. -/

namespace Sys2Proof.Machine

/-- Bit `n` of the lane mask. -/
theorem laneMask_getLsbD (n : Nat) : (0xFF#24).getLsbD n = decide (n < 8) := by
  by_cases h : n < 24
  · revert n; decide
  · rw [BitVec.getLsbD_of_ge _ _ (by omega)]
    simp
    omega

/-- Reading a lane after writing one: the byte written there, the old lane elsewhere (R15, R59). -/
theorem asmLane_putLane (asm : BitVec 24) {k j : Nat} (hk : k < 3) (hj : j < 3) (b : Byte) :
    asmLane (putLane asm k b) j = if j = k then b else asmLane asm j := by
  apply BitVec.eq_of_getLsbD_eq
  intro i hi
  unfold asmLane putLane
  simp only [BitVec.getLsbD_extractLsb', BitVec.getLsbD_or, BitVec.getLsbD_and, BitVec.getLsbD_not,
    BitVec.getLsbD_shiftLeft, BitVec.getLsbD_setWidth, laneMask_getLsbD]
  split
  · subst j
    have h1 : 8 * k + i < 24 := by omega
    have h2 : ¬ 8 * k + i < 8 * k := by omega
    have h3 : 8 * k + i - 8 * k = i := by omega
    have h4 : i < 24 := by omega
    simp [*]
  · simp only [BitVec.getLsbD_extractLsb']
    have h1 : 8 * j + i < 24 := by omega
    by_cases h : j < k
    · have h2 : 8 * j + i < 8 * k := by omega
      simp [*]
    · have h2 : ¬ 8 * j + i < 8 * k := by omega
      have h3 : ¬ 8 * j + i - 8 * k < 8 := by omega
      have h4 : b.getLsbD (8 * j + i - 8 * k) = false := BitVec.getLsbD_of_ge _ _ (by omega)
      simp [*]

/-- `ASM` is its three lanes. -/
theorem asm_eq_of_lanes {a b : BitVec 24} (h : ∀ k < 3, asmLane a k = asmLane b k) : a = b := by
  apply BitVec.eq_of_getLsbD_eq
  intro i hi
  have hl := congrArg (fun z => z.getLsbD (i % 8)) (h (i / 8) (by omega))
  simp only [asmLane, BitVec.getLsbD_extractLsb'] at hl
  rw [show 8 * (i / 8) + i % 8 = i by omega] at hl
  simpa [Nat.mod_lt] using hl

/-- The assembler invariant, lane by lane: every lane at or above `CNT` is zero (R17). -/
theorem lanesClear_iff (s : State) : s.LanesClear ↔ ∀ k < 3, s.cnt.toNat ≤ k → asmLane s.asm k = 0#8 := by
  unfold State.LanesClear asmLane
  constructor
  · intro h k hk hc
    apply BitVec.eq_of_getLsbD_eq
    intro i hi
    have hb := congrArg (fun z => z.getLsbD (8 * k + i - 8 * s.cnt.toNat)) h
    simp only [BitVec.getLsbD_ushiftRight, BitVec.getLsbD_zero] at hb
    rw [show 8 * s.cnt.toNat + (8 * k + i - 8 * s.cnt.toNat) = 8 * k + i by omega] at hb
    simp [hb]
  · intro h
    apply BitVec.eq_of_getLsbD_eq
    intro i hi
    simp only [BitVec.getLsbD_ushiftRight, BitVec.getLsbD_zero]
    by_cases hlt : 8 * s.cnt.toNat + i < 24
    · have hb := congrArg (fun z => z.getLsbD ((8 * s.cnt.toNat + i) % 8))
        (h ((8 * s.cnt.toNat + i) / 8) (by omega) (by omega))
      simp only [BitVec.getLsbD_extractLsb', BitVec.getLsbD_zero] at hb
      rw [show 8 * ((8 * s.cnt.toNat + i) / 8) + (8 * s.cnt.toNat + i) % 8 = 8 * s.cnt.toNat + i by omega] at hb
      simpa [Nat.mod_lt] using hb
    · exact BitVec.getLsbD_of_ge _ _ (by omega)

end Sys2Proof.Machine
end

