-- ==== Sys2Proof/Laws/State.lean ====
section
/-! SUPPORT. Beside State: each field after each update of Machine/Ops.lean, so that no proof unfolds a record update. -/

namespace Sys2Proof.Machine

variable (s : State)

@[simp] theorem State.setAcc_acc (v : Word) : (s.setAcc v).acc = v := rfl
@[simp] theorem State.setAcc_asm (v : Word) : (s.setAcc v).asm = s.asm := rfl
@[simp] theorem State.setAcc_cnt (v : Word) : (s.setAcc v).cnt = s.cnt := rfl
@[simp] theorem State.setAcc_inputs (v : Word) : (s.setAcc v).inputs = s.inputs := rfl
@[simp] theorem State.setAcc_responses (v : Word) : (s.setAcc v).responses = s.responses := rfl
@[simp] theorem State.setAcc_powerLosses (v : Word) : (s.setAcc v).powerLosses = s.powerLosses := rfl

@[simp] theorem State.setAsm_acc (v : BitVec 24) : (s.setAsm v).acc = s.acc := rfl
@[simp] theorem State.setAsm_asm (v : BitVec 24) : (s.setAsm v).asm = v := rfl
@[simp] theorem State.setAsm_cnt (v : BitVec 24) : (s.setAsm v).cnt = s.cnt := rfl
@[simp] theorem State.setAsm_inputs (v : BitVec 24) : (s.setAsm v).inputs = s.inputs := rfl
@[simp] theorem State.setAsm_responses (v : BitVec 24) : (s.setAsm v).responses = s.responses := rfl
@[simp] theorem State.setAsm_powerLosses (v : BitVec 24) : (s.setAsm v).powerLosses = s.powerLosses := rfl

@[simp] theorem State.setCnt_acc (v : BitVec 2) : (s.setCnt v).acc = s.acc := rfl
@[simp] theorem State.setCnt_asm (v : BitVec 2) : (s.setCnt v).asm = s.asm := rfl
@[simp] theorem State.setCnt_cnt (v : BitVec 2) : (s.setCnt v).cnt = v := rfl
@[simp] theorem State.setCnt_inputs (v : BitVec 2) : (s.setCnt v).inputs = s.inputs := rfl
@[simp] theorem State.setCnt_responses (v : BitVec 2) : (s.setCnt v).responses = s.responses := rfl
@[simp] theorem State.setCnt_powerLosses (v : BitVec 2) : (s.setCnt v).powerLosses = s.powerLosses := rfl

@[simp] theorem State.respond_acc (v : Word) : (s.respond v).acc = s.acc := rfl
@[simp] theorem State.respond_asm (v : Word) : (s.respond v).asm = s.asm := rfl
@[simp] theorem State.respond_cnt (v : Word) : (s.respond v).cnt = s.cnt := rfl
@[simp] theorem State.respond_inputs (v : Word) : (s.respond v).inputs = s.inputs := rfl
@[simp] theorem State.respond_responses (v : Word) : (s.respond v).responses = s.responses ++ [v] := rfl
@[simp] theorem State.respond_powerLosses (v : Word) : (s.respond v).powerLosses = s.powerLosses := rfl

@[simp] theorem State.clearAssembler_acc : s.clearAssembler.acc = s.acc := rfl
@[simp] theorem State.clearAssembler_asm : s.clearAssembler.asm = 0#24 := rfl
@[simp] theorem State.clearAssembler_cnt : s.clearAssembler.cnt = 0#2 := rfl
@[simp] theorem State.clearAssembler_inputs : s.clearAssembler.inputs = s.inputs := rfl
@[simp] theorem State.clearAssembler_responses : s.clearAssembler.responses = s.responses := rfl
@[simp] theorem State.clearAssembler_powerLosses : s.clearAssembler.powerLosses = s.powerLosses := rfl

@[simp] theorem State.pushByte_acc (b : Byte) : (s.pushByte b).acc = s.acc := rfl
@[simp] theorem State.pushByte_asm (b : Byte) : (s.pushByte b).asm = putLane s.asm s.cnt.toNat b := rfl
@[simp] theorem State.pushByte_cnt (b : Byte) : (s.pushByte b).cnt = s.cnt + 1#2 := rfl
@[simp] theorem State.pushByte_inputs (b : Byte) : (s.pushByte b).inputs = s.inputs := rfl
@[simp] theorem State.pushByte_responses (b : Byte) : (s.pushByte b).responses = s.responses := rfl
@[simp] theorem State.pushByte_powerLosses (b : Byte) : (s.pushByte b).powerLosses = s.powerLosses := rfl

@[simp] theorem State.feed_acc (w : Word) : (s.feed w).acc = transform s.acc w := rfl
@[simp] theorem State.feed_asm (w : Word) : (s.feed w).asm = s.asm := rfl
@[simp] theorem State.feed_cnt (w : Word) : (s.feed w).cnt = s.cnt := rfl
@[simp] theorem State.feed_inputs (w : Word) : (s.feed w).inputs = s.inputs := rfl
@[simp] theorem State.feed_responses (w : Word) : (s.feed w).responses = s.responses := rfl
@[simp] theorem State.feed_powerLosses (w : Word) : (s.feed w).powerLosses = s.powerLosses := rfl

@[simp] theorem State.seedRegs_acc : s.seedRegs.acc = seed := rfl
@[simp] theorem State.seedRegs_asm : s.seedRegs.asm = 0#24 := rfl
@[simp] theorem State.seedRegs_cnt : s.seedRegs.cnt = 0#2 := rfl
@[simp] theorem State.seedRegs_inputs : s.seedRegs.inputs = s.inputs := rfl
@[simp] theorem State.seedRegs_responses : s.seedRegs.responses = s.responses := rfl
@[simp] theorem State.seedRegs_powerLosses : s.seedRegs.powerLosses = s.powerLosses := rfl

@[simp] theorem State.losePower_acc : s.losePower.acc = Config.powerUpAcc s.powerLosses := rfl
@[simp] theorem State.losePower_asm : s.losePower.asm = Config.powerUpAsm s.powerLosses := rfl
@[simp] theorem State.losePower_cnt : s.losePower.cnt = Config.powerUpCnt s.powerLosses := rfl
@[simp] theorem State.losePower_inputs : s.losePower.inputs = s.inputs := rfl
@[simp] theorem State.losePower_responses : s.losePower.responses = s.responses := rfl
@[simp] theorem State.losePower_powerLosses : s.losePower.powerLosses = s.powerLosses + 1 := rfl

@[simp] theorem State.withInputs_acc (l : List HostInput) : (s.withInputs l).acc = s.acc := rfl
@[simp] theorem State.withInputs_asm (l : List HostInput) : (s.withInputs l).asm = s.asm := rfl
@[simp] theorem State.withInputs_cnt (l : List HostInput) : (s.withInputs l).cnt = s.cnt := rfl
@[simp] theorem State.withInputs_inputs (l : List HostInput) : (s.withInputs l).inputs = l := rfl
@[simp] theorem State.withInputs_responses (l : List HostInput) : (s.withInputs l).responses = s.responses := rfl
@[simp] theorem State.withInputs_powerLosses (l : List HostInput) : (s.withInputs l).powerLosses = s.powerLosses := rfl

@[simp] theorem State.startRun_acc (l : List HostInput) : (s.startRun l).acc = s.acc := rfl
@[simp] theorem State.startRun_asm (l : List HostInput) : (s.startRun l).asm = s.asm := rfl
@[simp] theorem State.startRun_cnt (l : List HostInput) : (s.startRun l).cnt = s.cnt := rfl
@[simp] theorem State.startRun_inputs (l : List HostInput) : (s.startRun l).inputs = l := rfl
@[simp] theorem State.startRun_responses (l : List HostInput) : (s.startRun l).responses = [] := rfl
@[simp] theorem State.startRun_powerLosses (l : List HostInput) : (s.startRun l).powerLosses = s.powerLosses := rfl

@[simp] theorem State.placeCommand_acc (w : Command) : (s.placeCommand w).acc = s.acc := rfl
@[simp] theorem State.placeCommand_asm (w : Command) : (s.placeCommand w).asm = s.asm := rfl
@[simp] theorem State.placeCommand_cnt (w : Command) : (s.placeCommand w).cnt = s.cnt := rfl
@[simp] theorem State.placeCommand_inputs (w : Command) : (s.placeCommand w).inputs = .command w :: s.inputs := rfl
@[simp] theorem State.placeCommand_responses (w : Command) : (s.placeCommand w).responses = s.responses := rfl
@[simp] theorem State.placeCommand_powerLosses (w : Command) : (s.placeCommand w).powerLosses = s.powerLosses := rfl

@[simp] theorem State.regs_acc : s.regs.acc = s.acc := rfl
@[simp] theorem State.regs_asm : s.regs.asm = s.asm := rfl
@[simp] theorem State.regs_cnt : s.regs.cnt = s.cnt := rfl

/-- Equal registers are equal in each of the three (R13). -/
theorem State.regs_eq_iff (t : State) : s.regs = t.regs ↔ s.acc = t.acc ∧ s.asm = t.asm ∧ s.cnt = t.cnt := by
  simp [State.regs]

/-- Putting back the inputs a state has changes nothing. -/
@[simp] theorem State.withInputs_self : s.withInputs s.inputs = s := rfl

/-- Of two replacements of the inputs, the later counts. -/
@[simp] theorem State.withInputs_withInputs (l k : List HostInput) :
    (s.withInputs l).withInputs k = s.withInputs k := rfl

end Sys2Proof.Machine
end

