-- ==== Sys2Proof/Laws/Ops.lean ====
section
/-! SUPPORT. One lemma per shared operation that says everything it can do, for the proofs to cite instead of unfolding. -/

namespace Sys2Proof.Machine

/-- Rounds compose: `m + n` rounds are `m` rounds and then `n` more. -/
theorem divRounds_add (m n : Nat) (x : Word) : divRounds (m + n) x = divRounds n (divRounds m x) := by
  induction m generalizing x with
  | zero => simp [divRounds]
  | succ m ih => rw [Nat.succ_add]; exact ih (divRound x)

/-- The precondition of LOAD and WORD either lets the command go on or refuses it with RF3 (R53, R54, R76). -/
theorem atChunkBoundary_cases (i : Instr) (s t : State) :
    (s.cnt = 0#2 ∧ atChunkBoundary i s t = .next t) ∨
    (s.cnt ≠ 0#2 ∧ atChunkBoundary i s t = .refused (.partialWord (encode i) s.cnt)) := by
  by_cases h : s.cnt = 0#2
  · exact .inl ⟨h, if_pos h⟩
  · exact .inr ⟨h, if_neg h⟩

/-- The two cases of BYTE (R59), told apart by `CNT = 3`. -/
theorem execByte_cases (b : Byte) (s : State) :
    (s.cnt ≠ 3#2 ∧ execByte b s = .next ((s.pushByte b).respond s.acc)) ∨
    (s.cnt = 3#2 ∧ execByte b s =
      .next (((s.feed (completedWord b s.asm)).clearAssembler).respond (transform s.acc (completedWord b s.asm)))) := by
  have key : s.cnt.toNat < 3 ↔ s.cnt ≠ 3#2 := by
    have := s.cnt.isLt
    rw [Ne, BitVec.toNat_eq]
    simp
    omega
  by_cases h : s.cnt.toNat < 3
  · exact .inl ⟨key.1 h, if_pos h⟩
  · exact .inr ⟨by simpa using mt key.2 h, if_neg h⟩

/-- The two cases of FINISH's tail step (R60). -/
theorem applyTail_cases (s : State) :
    (s.cnt = 0#2 ∧ s.applyTail = s) ∨ (s.cnt ≠ 0#2 ∧ s.applyTail = s.feed (tailWord s.asm)) := by
  by_cases h : s.cnt = 0#2
  · exact .inl ⟨h, if_pos h⟩
  · exact .inr ⟨h, if_neg h⟩

/-- Everything a command can do: seven ways to a next state, and no other way out but RF3 (R53, R54, R58 to R60, R70, R71). -/
theorem exec_cases (i : Instr) (s : State) :
    (∃ t, exec i s = .next t ∧
      ((i = .read ∧ t = s.respond s.acc) ∨
       (i = .seed ∧ t = s.seedRegs.respond seed) ∨
       (∃ v, i = .load v ∧ s.cnt = 0#2 ∧ t = (s.setAcc v).respond v) ∨
       (∃ v, i = .word v ∧ s.cnt = 0#2 ∧ t = (s.feed v).respond (transform s.acc v)) ∨
       (∃ b, i = .byte b ∧ s.cnt ≠ 3#2 ∧ t = (s.pushByte b).respond s.acc) ∨
       (∃ b, i = .byte b ∧ s.cnt = 3#2 ∧ t =
         ((s.feed (completedWord b s.asm)).clearAssembler).respond (transform s.acc (completedWord b s.asm))) ∨
       (i = .finish ∧ t = s.applyTail.clearAssembler.respond s.applyTail.acc) ∨
       (i = .stat ∧ t = s.respond (statusWord s.cnt s.asm)))) ∨
    (((∃ v, i = .load v) ∨ ∃ v, i = .word v) ∧ s.cnt ≠ 0#2 ∧ exec i s = .refused (.partialWord (encode i) s.cnt)) := by
  cases i with
  | read => exact .inl ⟨_, rfl, .inl ⟨rfl, rfl⟩⟩
  | seed => exact .inl ⟨_, rfl, .inr (.inl ⟨rfl, rfl⟩)⟩
  | load v =>
    rcases atChunkBoundary_cases (.load v) s ((s.setAcc v).respond v) with ⟨h, e⟩ | ⟨h, e⟩
    · exact .inl ⟨_, e, .inr (.inr (.inl ⟨v, rfl, h, rfl⟩))⟩
    · exact .inr ⟨.inl ⟨v, rfl⟩, h, e⟩
  | word v =>
    rcases atChunkBoundary_cases (.word v) s ((s.feed v).respond (transform s.acc v)) with ⟨h, e⟩ | ⟨h, e⟩
    · exact .inl ⟨_, e, .inr (.inr (.inr (.inl ⟨v, rfl, h, rfl⟩)))⟩
    · exact .inr ⟨.inr ⟨v, rfl⟩, h, e⟩
  | byte b =>
    rcases execByte_cases b s with ⟨h, e⟩ | ⟨h, e⟩
    · exact .inl ⟨_, e, .inr (.inr (.inr (.inr (.inl ⟨b, rfl, h, rfl⟩))))⟩
    · exact .inl ⟨_, e, .inr (.inr (.inr (.inr (.inr (.inl ⟨b, rfl, h, rfl⟩)))))⟩
  | finish => exact .inl ⟨_, rfl, .inr (.inr (.inr (.inr (.inr (.inr (.inl ⟨rfl, rfl⟩))))))⟩
  | stat => exact .inl ⟨_, rfl, .inr (.inr (.inr (.inr (.inr (.inr (.inr ⟨rfl, rfl⟩))))))⟩

/-- A decoded word is performed as its command (R42). -/
theorem perform_ok {w : Command} {i : Instr} (h : decode w = .ok i) (s : State) : perform w s = exec i s := by
  simp [perform, h]

/-- A reserved op is refused with RF1 (R76). -/
theorem perform_reservedOp {w : Command} (h : decode w = .error .reservedOp) (s : State) :
    perform w s = .refused (.reservedOp w) := by
  simp [perform, h]

/-- Unused data bits that are not 0 are refused with RF2 (R76). -/
theorem perform_nonzeroReservedData {w : Command} (h : decode w = .error .nonzeroReservedData) (s : State) :
    perform w s = .refused (.nonzeroReservedData w) := by
  simp [perform, h]

/-- With an input to come, a step consumes it and does what it says (R18, R32). -/
theorem step_cons {s : State} {x : HostInput} {rest : List HostInput} (h : s.inputs = x :: rest) :
    step s = takeInput x (s.withInputs rest) := by
  simp [step, h]

/-- `runSteps` is the host's run of this machine. -/
theorem runSteps_eq_core_run (n : Nat) (s : State) : runSteps n s = Host.Core.run Sys2Proof.core n s := by
  induction n generalizing s with
  | zero => rfl
  | succ n ih =>
    simp only [runSteps, Host.Core.run]
    cases h : step s with
    | next t => simpa [Sys2Proof.core, h] using ih t
    | fault r => simp [Sys2Proof.core, h]
    | refused r => simp [Sys2Proof.core, h]

end Sys2Proof.Machine
end

