-- ==== Sys2Proof/Laws/PerInstr.lean ====
section
/-! SUPPORT. Statements about every command as syntax, made per constructor. -/

namespace Sys2Proof.Laws.EncodesItsRow

/-- A command's word is covered by the row of the opcode map that has the command's mnemonic, and is none of the reserved and
illegal encodings (R41, R43). -/
def Statement (i : Instr) : Prop :=
  (∃ r ∈ opcodeTable, r.mnemonic = i.mnemonic ∧ r.covers (encode i)) ∧ (encode i).wellFormed = true

/-- Format W: whatever the data, the op alone decides the row. -/
theorem covers_of_op (op : BitVec 4) (data : BitVec 32) :
    (op ++ data : Command) &&& 0xF00000000#36 = op ++ 0#32 := by
  have h : (0xF00000000#36 : Command) = (0xF#4 ++ 0x00000000#32 : Command) := by decide
  have k : op &&& 0xF#4 = op := by revert op; decide
  rw [h, BitVec.and_append, k, BitVec.and_zero]

theorem read : Statement .read := ⟨⟨_, .head _, rfl, by decide⟩, by decide⟩

theorem seed : Statement .seed := ⟨⟨_, .tail _ (.head _), rfl, by decide⟩, by decide⟩

theorem load (imm32 : BitVec 32) : Statement (.load imm32) := by
  refine ⟨⟨_, .tail _ (.tail _ (.head _)), rfl, covers_of_op 0x2#4 imm32⟩, ?_⟩
  have h : ((encode (.load imm32)) >>> 32).toNat = 2 := by rw [Command.shiftRight_toNat, encode, op_append]; rfl
  simp [Command.wellFormed, Command.opAssigned, Command.reservedDataZero, h]

theorem word (imm32 : BitVec 32) : Statement (.word imm32) := by
  refine ⟨⟨_, .tail _ (.tail _ (.tail _ (.head _))), rfl, covers_of_op 0x3#4 imm32⟩, ?_⟩
  have h : ((encode (.word imm32)) >>> 32).toNat = 3 := by rw [Command.shiftRight_toNat, encode, op_append]; rfl
  simp [Command.wellFormed, Command.opAssigned, Command.reservedDataZero, h]

theorem byte (imm8 : BitVec 8) : Statement (.byte imm8) := by
  revert imm8
  unfold Statement OpcodeRow.covers
  decide +kernel

theorem finish : Statement .finish :=
  ⟨⟨_, .tail _ (.tail _ (.tail _ (.tail _ (.tail _ (.head _))))), rfl, by decide⟩, by decide⟩

theorem stat : Statement .stat :=
  ⟨⟨_, .tail _ (.tail _ (.tail _ (.tail _ (.tail _ (.tail _ (.head _)))))), rfl, by decide⟩, by decide⟩

end Sys2Proof.Laws.EncodesItsRow
end

