-- ==== Sys2Proof/Laws/Runs.lean ====
section
/-! SUPPORT. Commands neither read nor write the inputs still to come, so a run is the fold of its inputs from a state with no
inputs; the statements about runs are proved over that fold. -/

namespace Sys2Proof.Machine

/-- An outcome with its next state changed. -/
def mapNext (f : State → State) : Host.Outcome State Fault Refusal → Host.Outcome State Fault Refusal
  | .next s => .next (f s)
  | .fault r => .fault r
  | .refused r => .refused r

/-- An outcome followed by what is done in its next state. -/
def andThen (o : Host.Outcome State Fault Refusal) (f : State → Host.Outcome State Fault Refusal) :
    Host.Outcome State Fault Refusal :=
  match o with
  | .next s => f s
  | .fault r => .fault r
  | .refused r => .refused r

/-- What the inputs of a list do one after another (R32). -/
def foldInputs : List HostInput → State → Host.Outcome State Fault Refusal
  | [], s => .next s
  | x :: l, s => andThen (takeInput x s) (foldInputs l)

/-- A command does the same whatever is still to come, and leaves it as it is. -/
theorem exec_withInputs (i : Instr) (s : State) (l : List HostInput) :
    exec i (s.withInputs l) = mapNext (·.withInputs l) (exec i s) := by
  cases i with
  | load v => by_cases h : s.cnt = 0#2 <;> simp [exec, execLoad, atChunkBoundary, h, mapNext]; rfl
  | word v => by_cases h : s.cnt = 0#2 <;> simp [exec, execWord, atChunkBoundary, h, mapNext]; rfl
  | byte v => by_cases h : s.cnt.toNat < 3 <;> simp [exec, execByte, h, mapNext] <;> rfl
  | finish => by_cases h : s.cnt = 0#2 <;> simp [exec, execFinish, State.applyTail, h, mapNext] <;> rfl
  | read => rfl
  | seed => rfl
  | stat => rfl

/-- A command word does the same whatever is still to come, and leaves it as it is. -/
theorem perform_withInputs (w : Command) (s : State) (l : List HostInput) :
    perform w (s.withInputs l) = mapNext (·.withInputs l) (perform w s) := by
  unfold perform
  split
  · exact exec_withInputs _ _ _
  · rfl
  · rfl

/-- An input does the same whatever is still to come, and leaves it as it is. -/
theorem takeInput_withInputs (x : HostInput) (s : State) (l : List HostInput) :
    takeInput x (s.withInputs l) = mapNext (·.withInputs l) (takeInput x s) := by
  cases x with
  | command w => exact perform_withInputs _ _ _
  | cancelled w => simp only [takeInput, cancelByReset, perform_withInputs]; cases perform w s <;> rfl
  | wait => rfl
  | reset => rfl
  | powerLoss => rfl

/-- A run is the fold of its inputs. -/
theorem runInputs_eq_foldInputs (l : List HostInput) (s : State) : runInputs l s = foldInputs l (s.withInputs []) := by
  unfold runInputs
  induction l generalizing s with
  | nil => rfl
  | cons x l ih =>
    rw [List.length_cons, runSteps, step_cons (rest := l) (x := x) rfl, State.withInputs_withInputs,
      takeInput_withInputs, foldInputs, takeInput_withInputs]
    cases takeInput x s with
    | next t => exact ih t
    | fault r => rfl
    | refused r => rfl

/-- Driving a run over the first inputs of a list leaves the other ones still to come. -/
theorem runSteps_prefix (l k : List HostInput) (s : State) :
    runSteps l.length (s.withInputs (l ++ k)) = mapNext (·.withInputs k) (runInputs l s) := by
  rw [runInputs_eq_foldInputs]
  induction l generalizing s with
  | nil => rfl
  | cons x l ih =>
    rw [List.length_cons, runSteps, step_cons (rest := l ++ k) (x := x) rfl, State.withInputs_withInputs,
      takeInput_withInputs, foldInputs, takeInput_withInputs]
    cases takeInput x s with
    | next t => exact ih t
    | fault r => rfl
    | refused r => rfl

/-- A state with responses put before its own. -/
def State.afterResponses (rs : List Word) (s : State) : State :=
  { s with responses := rs ++ s.responses }

@[simp] theorem State.afterResponses_acc (rs : List Word) (s : State) : (s.afterResponses rs).acc = s.acc := rfl
@[simp] theorem State.afterResponses_asm (rs : List Word) (s : State) : (s.afterResponses rs).asm = s.asm := rfl
@[simp] theorem State.afterResponses_cnt (rs : List Word) (s : State) : (s.afterResponses rs).cnt = s.cnt := rfl
@[simp] theorem State.afterResponses_responses (rs : List Word) (s : State) :
    (s.afterResponses rs).responses = rs ++ s.responses := rfl

/-- A run from a state is one from the state in which the run starts, with the earlier responses before its own. -/
theorem State.withInputs_eq_startRun (s : State) (l : List HostInput) :
    s.withInputs l = (s.startRun l).afterResponses s.responses := by
  simp [State.withInputs, State.startRun, State.afterResponses]

/-- A command does the same whatever was answered before it, and leaves those responses as they are. -/
theorem exec_afterResponses (i : Instr) (s : State) (rs : List Word) :
    exec i (s.afterResponses rs) = mapNext (State.afterResponses rs) (exec i s) := by
  have h (t : State) (v : Word) : (t.afterResponses rs).respond v = (t.respond v).afterResponses rs := by
    simp [State.respond, State.afterResponses]
  cases i with
  | load v => by_cases hc : s.cnt = 0#2 <;> simp [exec, execLoad, atChunkBoundary, hc, mapNext]; exact h (s.setAcc v) v
  | word v =>
    by_cases hc : s.cnt = 0#2 <;> simp [exec, execWord, atChunkBoundary, hc, mapNext]
    exact h (s.feed v) (transform s.acc v)
  | byte v =>
    by_cases hc : s.cnt.toNat < 3 <;> simp [exec, execByte, hc, mapNext]
    · exact h (s.pushByte v) s.acc
    · exact h (s.feed (completedWord v s.asm)).clearAssembler _
  | finish =>
    by_cases hc : s.cnt = 0#2 <;> simp [exec, execFinish, State.applyTail, hc, mapNext]
    · exact h s.clearAssembler s.acc
    · exact h (s.feed (tailWord s.asm)).clearAssembler _
  | read => exact congrArg Host.Outcome.next (h s s.acc)
  | seed => exact congrArg Host.Outcome.next (h s.seedRegs seed)
  | stat => exact congrArg Host.Outcome.next (h s (statusWord s.cnt s.asm))

/-- A command word does the same whatever was answered before it, and leaves those responses as they are. -/
theorem perform_afterResponses (w : Command) (s : State) (rs : List Word) :
    perform w (s.afterResponses rs) = mapNext (State.afterResponses rs) (perform w s) := by
  unfold perform
  split
  · exact exec_afterResponses _ _ _
  · rfl
  · rfl

/-- An input does the same whatever was answered before it, and leaves those responses as they are. -/
theorem takeInput_afterResponses (x : HostInput) (s : State) (rs : List Word) :
    takeInput x (s.afterResponses rs) = mapNext (State.afterResponses rs) (takeInput x s) := by
  cases x with
  | command w => exact perform_afterResponses _ _ _
  | cancelled w => simp only [takeInput, cancelByReset, perform_afterResponses]; cases perform w s <;> rfl
  | wait => rfl
  | reset => rfl
  | powerLoss => rfl

/-- Inputs do the same whatever was answered before them, and leave those responses as they are. -/
theorem foldInputs_afterResponses (l : List HostInput) (s : State) (rs : List Word) :
    foldInputs l (s.afterResponses rs) = mapNext (State.afterResponses rs) (foldInputs l s) := by
  induction l generalizing s with
  | nil => rfl
  | cons x l ih =>
    rw [foldInputs, foldInputs, takeInput_afterResponses]
    cases takeInput x s with
    | next t => exact ih t
    | fault r => rfl
    | refused r => rfl

/-- A run with a refusal recorded goes no further (R78). -/
theorem Run.advances_marked {r : Run} {c : Refusal} (h : r.mark = some c) (n : Nat) : r.advances n = r := by
  induction n with
  | zero => rfl
  | succ n ih => rw [Run.advances, show r.advance = r by simp [Run.advance, h], ih]

/-- Steps of a run add up. -/
theorem Run.advances_add (r : Run) (m n : Nat) : r.advances (m + n) = (r.advances m).advances n := by
  induction m generalizing r with
  | zero => rw [Nat.zero_add]; rfl
  | succ m ih => rw [Nat.succ_add, Run.advances, Run.advances, ih]

/-- A run whose steps are not refused is where the machine is, with no refusal recorded. -/
theorem Run.advances_of_runSteps {n : Nat} {s t : State} (h : runSteps n s = .next t) :
    Run.advances n ⟨s, none⟩ = ⟨t, none⟩ := by
  induction n generalizing s with
  | zero => cases h; rfl
  | succ n ih =>
    rw [runSteps] at h
    rw [Run.advances, Run.advance]
    cases hs : step s with
    | next u => rw [hs] at h; exact ih h
    | fault r => rw [hs] at h; cases h
    | refused r => rw [hs] at h; cases h

end Sys2Proof.Machine
end

