-- ==== Sys2Proof/Tests/Slice0.lean ====
section
/-! SUPPORT. The model's own tests. Every expected value is one that spec/ states (95_test_vectors.md unless another file is
named); none is the model's own answer. After the tests stand the witnesses: for each statement with hypotheses, a state and
operands that meet them. -/

namespace Sys2Proof.Tests

open Sys2Proof.Machine

/-- A state with these registers, nothing issued and nothing answered. -/
def st (acc : BitVec 32) (asm : BitVec 24) (cnt : BitVec 2) : State :=
  { State.reset with acc := acc, asm := asm, cnt := cnt }

/-- The responses and registers an outcome shows; none where the command was refused. -/
def shows : Host.Outcome State Fault Refusal → Option Observation
  | .next s => some ⟨s.responses, some s.regs⟩
  | .fault _ => none
  | .refused _ => none

/-- The reason an outcome was refused for. -/
def reason : Host.Outcome State Fault Refusal → Option Refusal
  | .next _ => none
  | .fault _ => none
  | .refused r => some r

/-- One answer and the registers after it. -/
def answer (v : Word) (acc : BitVec 32) (asm : BitVec 24) (cnt : BitVec 2) : Option Observation :=
  some ⟨[v], some ⟨acc, asm, cnt⟩⟩

/-! ## Well-formedness: an ill-formed term for each check -/

/-- RF1: a reserved op (2.9). -/
theorem test_wf_reserved_op_refused : Command.opAssigned 0x700000000#36 = false := by decide

/-- RF2: READ and BYTE with a data bit set that the format does not use (2.5, 2.7). -/
theorem test_wf_unused_data_refused :
    Command.reservedDataZero 0x000000001#36 = false ∧ Command.reservedDataZero 0x40000015C#36 = false := by decide

/-- A source line with an operand too many (R45: READ takes none). -/
theorem test_wf_operand_count_refused : SourceLine.countOk ⟨.command .read, [0]⟩ = false := by decide

/-- A source line with an operand out of range (30_encoding.md, examples: BYTE 0x15C). -/
theorem test_wf_operand_range_refused : SourceLine.rangeOk ⟨.command .byte, [0x15C]⟩ = false := by decide

/-- A well-formed word and a well-formed line pass every check. -/
theorem test_wf_legal_accepted :
    Command.wellFormed 0x4000000FF#36 = true ∧ SourceLine.wellFormed ⟨.command .byte, [255]⟩ = true := by decide

/-! ## Decoding: words of 95_test_vectors.md, op in the first hex digit and data in the last eight (R35) -/

theorem test_decode_read : decode 0x000000000#36 = .ok .read := rfl
theorem test_decode_seed : decode 0x100000000#36 = .ok .seed := rfl
theorem test_decode_load : decode 0x212345678#36 = .ok (.load 0x12345678#32) := rfl
theorem test_decode_word : decode 0x3DA622CDD#36 = .ok (.word 0xDA622CDD#32) := rfl
theorem test_decode_byte : decode 0x4000000FF#36 = .ok (.byte 0xFF#8) := rfl
theorem test_decode_finish : decode 0x500000000#36 = .ok .finish := rfl
theorem test_decode_stat : decode 0x600000000#36 = .ok .stat := rfl

/-- 2.9: RF1 for the lowest and the highest reserved op. -/
theorem test_decode_reserved_ops :
    decode 0x700000000#36 = .error .reservedOp ∧ decode 0xF12345678#36 = .error .reservedOp := ⟨rfl, rfl⟩

/-- 2.4, 2.6, 2.7, 2.9: RF2 for each command that has unused data bits. -/
theorem test_decode_unused_data :
    decode 0x000000001#36 = .error .nonzeroReservedData ∧ decode 0x100000100#36 = .error .nonzeroReservedData ∧
    decode 0x40000015C#36 = .error .nonzeroReservedData ∧ decode 0x500000001#36 = .error .nonzeroReservedData ∧
    decode 0x600008000#36 = .error .nonzeroReservedData := ⟨rfl, rfl, rfl, rfl, rfl⟩

/-- The host's question: the table's word, placed, is decoded and performed by the very next step (P1 row 1). -/
theorem test_table_word_is_performed :
    decodeTableWord 40 0x2FFFFFFFF = some (.load 0xFFFFFFFF#32) ∧
    shows (step (State.reset.withFetchWord 40 0x2FFFFFFFF)) = answer 0xFFFFFFFF#32 0xFFFFFFFF#32 0#24 0#2 := by
  decide

/-! ## The datapath (2.1, 2.2) -/

theorem test_round_polynomial_bit_cancels : divRound 0x80000001#32 = 0x04C11DB5#32 := by decide
theorem test_round_shift_only : divRound 0x12345678#32 = 0x2468ACF0#32 := by decide
theorem test_transform_general : transform 0x12345678#32 0x9ABCDEF0#32 = 0xFA5F1433#32 := by decide +kernel
theorem test_transform_lane_one : transform 0x00000000#32 0x00000100#32 = 0xD219C1DC#32 := by decide +kernel

/-- 2.2: the byte-serial fold of "123456789" is the catalogued check value (93_implementation_defined.md G1). -/
theorem test_byte_serial_check_value :
    [0x31#8, 0x32#8, 0x33#8, 0x34#8, 0x35#8, 0x36#8, 0x37#8, 0x38#8, 0x39#8].foldl divByte 0xFFFFFFFF#32
      = 0x0376E6E7#32 := by decide +kernel

/-! ## One step of each command -/

theorem test_read_leaves_pending_bytes :
    shows (exec .read (st 0x8695C2DC#32 0x006655#24 2#2)) = answer 0x8695C2DC#32 0x8695C2DC#32 0x006655#24 2#2 := by decide

theorem test_stat_view :
    shows (exec .stat (st 0x8695C2DC#32 0x006655#24 2#2)) = answer 0x02006655#32 0x8695C2DC#32 0x006655#24 2#2 := by decide

theorem test_seed_discards_pending_bytes :
    shows (exec .seed (st 0x3DA1135C#32 0x006655#24 2#2)) = answer 0xFFFFFFFF#32 0xFFFFFFFF#32 0#24 0#2 := by decide

theorem test_load_sets_acc :
    shows (exec (.load 0x12345678#32) (st 0x3DA1135C#32 0#24 0#2)) = answer 0x12345678#32 0x12345678#32 0#24 0#2 := by decide

/-- RF3 records the word and `CNT` (2.3, 2.9). -/
theorem test_load_refused_with_bytes_pending :
    reason (exec (.load 0#32) (st 0xFFFFFFFF#32 0x002211#24 2#2)) = some (.partialWord 0x200000000#36 2#2) := by decide

theorem test_word_reference_vector :
    shows (exec (.word 0x12341234#32) (st 0xFFFFFFFF#32 0#24 0#2)) = answer 0xDA622CDD#32 0xDA622CDD#32 0#24 0#2 := by
  decide +kernel

theorem test_word_refused_with_bytes_pending :
    reason (exec (.word 0#32) (st 0xFFFFFFFF#32 0x000011#24 1#2)) = some (.partialWord 0x300000000#36 1#2) := by decide

theorem test_byte_goes_to_lane_two :
    shows (exec (.byte 0x33#8) (st 0xFFFFFFFF#32 0x002211#24 2#2)) = answer 0xFFFFFFFF#32 0xFFFFFFFF#32 0x332211#24 3#2 := by
  decide

theorem test_byte_completes_chunk :
    shows (exec (.byte 0x44#8) (st 0xFFFFFFFF#32 0x332211#24 3#2)) = answer 0x8695C2DC#32 0x8695C2DC#32 0#24 0#2 := by
  decide +kernel

theorem test_finish_two_byte_tail :
    shows (exec .finish (st 0x8695C2DC#32 0x006655#24 2#2)) = answer 0x3DA1135C#32 0x3DA1135C#32 0#24 0#2 := by
  decide +kernel

theorem test_finish_without_tail :
    shows (exec .finish (st 0xA3141BDA#32 0#24 0#2)) = answer 0xA3141BDA#32 0xA3141BDA#32 0#24 0#2 := by decide

/-- 2.9: the order of the refusal reasons with bytes pending. -/
theorem test_refusal_priority :
    reason (perform 0x700000000#36 (st 0#32 0x002211#24 2#2)) = some (.reservedOp 0x700000000#36) ∧
    reason (perform 0x100000001#36 (st 0#32 0x002211#24 2#2)) = some (.nonzeroReservedData 0x100000001#36) ∧
    reason (perform 0x300000000#36 (st 0#32 0x002211#24 2#2)) = some (.partialWord 0x300000000#36 2#2) := by decide

/-! ## The stream function (2.8, section 1) and the assembler (30_encoding.md) -/

theorem test_stream_tail_vector :
    stream [0x11#8, 0x22#8, 0x33#8, 0x44#8, 0x55#8, 0x66#8] = 0x3DA1135C#32 := by decide +kernel

theorem test_stream_ascii_digits :
    stream [0x31#8, 0x32#8, 0x33#8, 0x34#8, 0x35#8, 0x36#8, 0x37#8, 0x38#8, 0x39#8] = 0xAFF19057#32 := by decide +kernel

theorem test_stream_absent_buffer : streamCall none 7 = some 0xFFFFFFFF#32 := by decide

/-- The encoding examples: `byte 0x5C ; comment` and `LOAD 4294967295`. -/
theorem test_assemble_lines :
    assembleLine ['b', 'y', 't', 'e', ' ', '0', 'x', '5', 'C', ' ', ';', 'n'] = .ok [0x40000005C#36] ∧
    assembleLine ['L', 'O', 'A', 'D', ' ', '4', '2', '9', '4', '9', '6', '7', '2', '9', '5'] = .ok [0x2FFFFFFFF#36] := by
  decide

/-- The encoding examples: `BYTE 0x15C` is an assembly error. -/
theorem test_assemble_out_of_range :
    assembleLine ['B', 'Y', 'T', 'E', ' ', '0', 'x', '1', '5', 'C'] = .error .outOfRange := by decide

/-- R46: `STREAM 17, 34` is SEED, two BYTEs and FINISH. -/
theorem test_assemble_stream :
    assembleLine ['S', 'T', 'R', 'E', 'A', 'M', ' ', '1', '7', ',', ' ', '3', '4'] =
      .ok [0x100000000#36, 0x400000011#36, 0x400000022#36, 0x500000000#36] := by decide

/-! ## Witnesses of the statements' hypotheses -/

theorem witness_EncodeOfDecode : ∃ w i, decode w = .ok i := ⟨0x4000000FF#36, .byte 0xFF#8, rfl⟩

theorem witness_OpcodeRowsMatchTheDecoder :
    ∃ w, ∃ r ∈ opcodeTable, ∃ q ∈ opcodeTable, r.covers w ∧ q.covers w :=
  ⟨0x3FFFFFFFF#36, ⟨.word, 0x300000000#36, 0xF00000000#36⟩, by decide, ⟨.word, 0x300000000#36, 0xF00000000#36⟩,
    by decide, by decide, by decide⟩

/-- A word for each clause, at the ends of its range. -/
theorem witness_DecodingIsTotal :
    (7 ≤ (0x700000000#36 >>> 32).toNat ∧ 7 ≤ (0xFFFFFFFFF#36 >>> 32).toNat) ∧
    ((0x600000001#36 >>> 32).toNat ∈ [0, 1, 5, 6] ∧ (0x600000001#36).setWidth 32 ≠ 0#32) ∧
    ((0x400000100#36 >>> 32).toNat = 4 ∧ (0x400000100#36).setWidth 32 >>> 8 ≠ 0#32) ∧
    ((0x000000000#36 >>> 32).toNat = 0 ∧ (0x000000000#36).setWidth 32 = 0#32) ∧
    ((0x100000000#36 >>> 32).toNat = 1 ∧ (0x100000000#36).setWidth 32 = 0#32) ∧
    (0x2FFFFFFFF#36 >>> 32).toNat = 2 ∧ (0x300000000#36 >>> 32).toNat = 3 ∧
    ((0x4000000FF#36 >>> 32).toNat = 4 ∧ (0x4000000FF#36).setWidth 32 >>> 8 = 0#32) ∧
    ((0x500000000#36 >>> 32).toNat = 5 ∧ (0x500000000#36).setWidth 32 = 0#32) ∧
    ((0x600000000#36 >>> 32).toNat = 6 ∧ (0x600000000#36).setWidth 32 = 0#32) ∧
    ((0x3FFFFFFFF#36 >>> 32).toNat ∈ [2, 3] ∧ (st 0#32 0x000011#24 1#2).cnt ≠ 0#2) := by decide

theorem witness_TransformIsBijective : ∃ a1 w1 a2 w2 : Word, a1 ^^^ w1 ≠ a2 ^^^ w2 := ⟨0#32, 1#32, 0#32, 0#32, by decide⟩

theorem witness_StepRunsTheDecodedCommand :
    ∃ (s : State) (w : Command) (rest : List HostInput) (i : Instr), s.inputs = .command w :: rest ∧ decode w = .ok i :=
  ⟨State.reset.withInputs [.command 0x312341234#36, .wait], _, _, _, rfl, rfl⟩

theorem witness_RefusesInExactlyThreeCases : ∃ s : State, s.cnt = 2#2 := ⟨st 0#32 0x002211#24 2#2, rfl⟩

/-- A LOAD at a chunk boundary, and a READ with bytes pending, which has no precondition. -/
theorem witness_CommandsCompleteNormally :
    (∃ (w : Command) (s : State) (i : Instr), decode w = .ok i ∧ i.mnemonic = .load ∧ s.cnt = 0#2) ∧
    ∃ (w : Command) (s : State) (i : Instr), decode w = .ok i ∧ i.mnemonic = .read ∧ s.cnt = 3#2 :=
  ⟨⟨0x200000000#36, State.reset, .load 0#32, rfl, rfl, rfl⟩, ⟨0#36, st 0#32 0#24 3#2, .read, rfl, rfl, rfl⟩⟩

theorem witness_RefusalIsFinal :
    (∃ (r : Run) (c : Refusal), r.mark = some c) ∧ ∃ (s : State) (c : Refusal), runSteps 1 s = .refused c :=
  ⟨⟨⟨State.reset, some (.reservedOp 0x700000000#36)⟩, _, rfl⟩,
    ⟨State.reset.withInputs [.command 0x700000000#36], .reservedOp 0x700000000#36, rfl⟩⟩

theorem witness_IdleBlockHoldsItsState :
    (∃ s : State, s.inputs = []) ∧ ∃ (s : State) (rest : List HostInput), s.inputs = .wait :: rest :=
  ⟨⟨State.reset, rfl⟩, ⟨State.reset.withInputs [.wait], [], rfl⟩⟩

/-- The list holds a wait and no loss of power. -/
theorem witness_WaitingChangesNoResult :
    ∃ l : List HostInput, .powerLoss ∉ l ∧ l.filter (fun x => decide (x ≠ .wait)) ≠ l :=
  ⟨[.wait, .command 0x600000000#36], by decide, by decide⟩

theorem witness_OneResponsePerCommand :
    (∃ (i : Instr) (s t : State), exec i s = .next t) ∧ ∃ (is : List Instr) (s t : State), issue is s = .next t :=
  ⟨⟨.read, State.reset, _, rfl⟩, ⟨[.seed, .byte 1#8, .stat], State.reset, _, rfl⟩⟩

/-- For the refused run, a refusal at the first command and one after an answered command, each in the next step. -/
theorem witness_RunObservation :
    (∃ (s : State) (ws : List Command) (t : State), runInputs (ws.map .command) s = .next t ∧ s.responses ≠ []) ∧
    (∃ (s : State) (w : Command) (t : State) (c : Refusal) (n : Nat),
      runInputs (([] : List Command).map .command) s = .next t ∧ perform w t = .refused c ∧
      ([] : List Command).length < n) ∧
    ∃ (s : State) (pre : List Command) (w : Command) (t : State) (c : Refusal) (n : Nat),
      runInputs (pre.map .command) s = .next t ∧ perform w t = .refused c ∧ pre.length < n ∧ pre ≠ [] :=
  ⟨⟨State.reset.respond 7#32, [0x400000011#36, 0x600000000#36], _, rfl, by decide⟩,
    ⟨State.reset, 0x700000000#36, _, _, 1, rfl, rfl, by decide⟩,
    ⟨State.reset, [0x400000011#36], 0x300000000#36, _, _, 2, rfl, rfl, by decide, by decide⟩⟩

theorem witness_CommandDependsOnRegistersOnly : ∃ s t : State, s.regs = t.regs ∧ s ≠ t :=
  ⟨State.reset, State.reset.respond 0#32, rfl, by decide⟩

theorem witness_ResetValues :
    (∃ s t : State, exec .seed s = .next t) ∧ ∃ l : List HostInput, .powerLoss ∉ l ∧ l ≠ [] :=
  ⟨⟨st 0#32 0x11#24 1#2, _, rfl⟩, ⟨[.command 0x400000011#36, .reset, .wait], by decide, by decide⟩⟩

theorem witness_SeedActsAsReset : ∃ l : List HostInput, .powerLoss ∉ l ∧ l ≠ [] :=
  ⟨[.command 0x400000011#36, .command 0x600000000#36], by decide, by decide⟩

theorem witness_ResetFromAnyState :
    (∃ (s : State) (rest : List HostInput), s.inputs = .reset :: rest) ∧
    ∃ (s : State) (w : Command) (rest : List HostInput), s.inputs = .cancelled w :: rest ∧ commandDuty s w = true :=
  ⟨⟨(st 0#32 0x11#24 1#2).withInputs [.reset], [], rfl⟩,
    ⟨(st 0#32 0x11#24 1#2).withInputs [.cancelled 0x400000022#36], _, _, rfl, by decide⟩⟩

theorem witness_SeedRecoversFromPowerLoss : ∃ (s : State) (rest : List HostInput), s.inputs = .powerLoss :: rest :=
  ⟨State.reset.withInputs [.powerLoss], [], rfl⟩

theorem witness_StatResult :
    (∃ s t u : State, exec .stat s = .next t ∧ exec .stat t = .next u) ∧
    (∃ s t u : State, exec .seed s = .next t ∧ exec .stat t = .next u) ∧
    (∃ s t u : State, exec .finish s = .next t ∧ exec .stat t = .next u) ∧
    ∃ s t u : State, (Instr.byte 0x44#8).mnemonic = .byte ∧ s.cnt = 3#2 ∧ exec (.byte 0x44#8) s = .next t ∧
      exec .stat t = .next u :=
  ⟨⟨State.reset, _, _, rfl, rfl⟩, ⟨State.reset, _, _, rfl, rfl⟩, ⟨State.reset, _, _, rfl, rfl⟩,
    ⟨st 0#32 0#24 3#2, _, _, rfl, rfl, rfl, rfl⟩⟩

theorem witness_SeedResult :
    (∃ t, exec .seed State.reset = .next t) ∧ ∃ s t u : State, exec .seed s = .next t ∧ exec .seed t = .next u :=
  ⟨⟨_, rfl⟩, ⟨st 0#32 0x11#24 1#2, _, _, rfl, rfl⟩⟩

theorem witness_LoadResult :
    (∃ s : State, s.cnt = 0#2) ∧ (∃ s : State, s.cnt ≠ 0#2) ∧
    (∃ s t u : State, s.LanesClear ∧ exec (.load 0xFFFFFFFF#32) s = .next t ∧ exec .seed s = .next u) ∧
    (∃ (v : Word) (s t u : State), exec (.load v) s = .next t ∧ exec .read t = .next u) ∧
    ∃ s : State, s.acc = 0x3DA1135C#32 ∧ s.cnt = 0#2 :=
  ⟨⟨State.reset, rfl⟩, ⟨st 0#32 0#24 3#2, by decide⟩, ⟨State.reset, _, _, by decide, rfl, rfl⟩,
    ⟨0#32, State.reset, _, _, rfl, rfl⟩, ⟨st 0x3DA1135C#32 0#24 0#2, rfl, rfl⟩⟩

theorem witness_WordResult :
    (∃ s : State, s.cnt = 0#2 ∧ s.acc = 0x00000000#32) ∧ (∃ s : State, s.cnt = 0#2 ∧ s.acc = 0xFFFFFFFF#32) ∧
    ∃ s : State, s.cnt ≠ 0#2 :=
  ⟨⟨st 0#32 0#24 0#2, rfl, rfl⟩, ⟨State.reset, rfl, rfl⟩, ⟨st 0#32 0#24 1#2, by decide⟩⟩

theorem witness_ByteResult :
    (∃ s : State, s.cnt ≠ 3#2) ∧ (∃ s : State, s.cnt = 3#2) ∧
    ∃ s : State, s.acc = 0xFFFFFFFF#32 ∧ s.asm = 0x332211#24 ∧ s.cnt = 3#2 :=
  ⟨⟨st 0#32 0#24 2#2, by decide⟩, ⟨st 0#32 0#24 3#2, rfl⟩, ⟨st 0xFFFFFFFF#32 0x332211#24 3#2, rfl, rfl, rfl⟩⟩

theorem witness_FinishResult :
    (∃ s : State, s.cnt ≠ 0#2) ∧ (∃ s : State, s.cnt = 0#2) ∧
    (∃ s t u : State, exec .finish s = .next t ∧ exec .finish t = .next u) ∧
    ∃ s : State, s.acc = 0x8695C2DC#32 ∧ s.asm = 0x006655#24 ∧ s.cnt = 2#2 :=
  ⟨⟨st 0#32 0#24 1#2, by decide⟩, ⟨State.reset, rfl⟩, ⟨State.reset, _, _, rfl, rfl⟩,
    ⟨st 0x8695C2DC#32 0x006655#24 2#2, rfl, rfl, rfl⟩⟩

theorem witness_AccumulatorWritersAndResponses :
    (∃ (i : Instr) (s t : State), exec i s = .next t ∧ t.acc ≠ s.acc) ∧
    ∃ (i : Instr) (s t : State), exec i s = .next t ∧ i ≠ .stat :=
  ⟨⟨.load 0#32, State.reset, _, rfl, by decide⟩, ⟨.read, State.reset, _, rfl, by decide⟩⟩

theorem witness_CountOfPendingBytes :
    (∃ s t : State, exec .seed s = .next t ∨ exec .finish s = .next t) ∧
    (∃ (b : Byte) (s t : State), exec (.byte b) s = .next t ∧ s.cnt = 3#2) ∧
    (∃ (i : Instr) (s t : State), exec i s = .next t ∧ i.mnemonic ∈ [.read, .load, .word, .stat]) ∧
    (∃ i : Instr, i.mnemonic ∈ [.load, .word]) ∧ ∃ s t : State, exec .stat s = .next t :=
  ⟨⟨State.reset, _, .inl rfl⟩, ⟨0#8, st 0#32 0#24 3#2, _, rfl, rfl⟩, ⟨.load 1#32, State.reset, _, rfl, by decide⟩,
    ⟨.word 0#32, by decide⟩, ⟨State.reset, _, rfl⟩⟩

theorem witness_PendingBytesRegister :
    (∃ (i : Instr) (s t : State), exec i s = .next t ∧ i.mnemonic = .byte ∧ s.cnt = 3#2) ∧
    (∃ (b : Byte) (s t : State), exec (.byte b) s = .next t ∧ s.cnt ≠ 3#2) ∧
    (∃ (i : Instr) (s t : State), exec i s = .next t ∧ i.mnemonic ∈ [.read, .load, .word, .stat]) ∧
    ∃ s t : State, exec .stat s = .next t :=
  ⟨⟨.byte 0#8, st 0#32 0#24 3#2, _, rfl, rfl, rfl⟩, ⟨0#8, st 0#32 0x2211#24 2#2, _, rfl, by decide⟩,
    ⟨.word 1#32, State.reset, _, rfl, by decide⟩, ⟨State.reset, _, rfl⟩⟩

theorem witness_CommandFrame :
    (∃ (i : Instr) (s t : State), exec i s = .next t ∧ i.mnemonic ∈ [.read, .stat]) ∧
    (∃ (i : Instr) (s t : State), exec i s = .next t ∧ i.mnemonic ∈ [.load, .word]) ∧
    ∃ (i : Instr) (s t : State), exec i s = .next t ∧ i.mnemonic = .byte ∧ s.cnt ≠ 3#2 :=
  ⟨⟨.stat, State.reset, _, rfl, by decide⟩, ⟨.word 0#32, State.reset, _, rfl, by decide⟩,
    ⟨.byte 0#8, st 0#32 0x2211#24 2#2, _, rfl, rfl, by decide⟩⟩

theorem witness_AssemblerInvariantKept :
    (∃ (i : Instr) (s t : State), s.LanesClear ∧ exec i s = .next t) ∧
    (∃ (i : Instr) (s t : State), (i = .seed ∨ i = .finish) ∧ exec i s = .next t) ∧
    ∃ (s : State) (k : Nat), s.LanesClear ∧ s.cnt.toNat ≤ k ∧ k < 4 :=
  ⟨⟨.byte 0x22#8, st 0#32 0x11#24 1#2, _, by decide, rfl⟩, ⟨.finish, State.reset, _, .inr rfl, rfl⟩,
    ⟨st 0#32 0x332211#24 3#2, 3, by decide, by decide, by decide⟩⟩

theorem witness_StepKeepsTheInvariant : ∃ s t : State, s.Inv ∧ step s = .next t :=
  ⟨(st 0#32 0x2211#24 2#2).withInputs [.command 0x400000033#36, .reset], _, by decide, rfl⟩

theorem witness_StreamCallIsTheCommandSequence :
    (∃ (buf : Option (List Byte)) (n : Nat) (v : Word), streamCall buf n = some v) ∧
    ∃ (buf : List Byte) (n : Nat), n ≤ buf.length :=
  ⟨⟨none, 3, _, rfl⟩, ⟨[1#8, 2#8], 2, by decide⟩⟩

/-- A chunk fed with WORD, one fed with BYTE, and a tail. -/
theorem witness_WordEqualsItsFourBytes :
    (∃ s : State, s.cnt = 0#2 ∧ s.LanesClear) ∧
    ∃ (chunks : List (Bool × Byte × Byte × Byte × Byte)) (tail buf : List Byte),
      buf = chunks.flatMap (fun (_, c0, c1, c2, c3) => [c0, c1, c2, c3]) ++ tail ∧ buf.length = 9 :=
  ⟨⟨State.reset, rfl, by decide⟩,
    ⟨[(true, 1#8, 2#8, 3#8, 4#8), (false, 5#8, 6#8, 7#8, 8#8)], [9#8], _, rfl, rfl⟩⟩

theorem witness_TailEqualsItsPaddedChunk : ∃ buf : List Byte, buf.length % 4 ≠ 0 := ⟨[1#8, 2#8, 3#8], by decide⟩

/-- A command of every case: without a transform SEED, LOAD and a BYTE before the fourth; with one WORD, the fourth BYTE and
FINISH with a byte pending. -/
theorem witness_StreamTransformCount :
    (∃ s t : State, exec .seed s = .next t ∧ transformsOf .seed s = 0) ∧
    (∃ (v : Word) (s t : State), exec (.load v) s = .next t ∧ transformsOf (.load v) s = 0) ∧
    (∃ (b : Byte) (s t : State), exec (.byte b) s = .next t ∧ transformsOf (.byte b) s = 0) ∧
    (∃ (v : Word) (s t : State), exec (.word v) s = .next t ∧ transformsOf (.word v) s ≠ 0) ∧
    (∃ (b : Byte) (s t : State), exec (.byte b) s = .next t ∧ transformsOf (.byte b) s ≠ 0) ∧
    ∃ s t : State, exec .finish s = .next t ∧ transformsOf .finish s ≠ 0 :=
  ⟨⟨State.reset, _, rfl, by decide⟩, ⟨7#32, State.reset, _, rfl, by decide⟩, ⟨0#8, st 0#32 0#24 2#2, _, rfl, by decide⟩,
    ⟨7#32, State.reset, _, rfl, by decide⟩, ⟨0#8, st 0#32 0#24 3#2, _, rfl, by decide⟩,
    ⟨st 0#32 0x11#24 1#2, _, rfl, by decide⟩⟩

theorem witness_StreamCancelsItself : ∃ buf : List Byte, buf.length % 4 = 0 := ⟨[1#8, 2#8, 3#8, 4#8], by decide⟩

theorem witness_ContextIsSavedAndRestored : ∃ s u : State, s.LanesClear ∧ s.regs ≠ u.regs :=
  ⟨st 0x1DABE74F#32 0x000005#24 1#2, State.reset, by decide, by decide⟩

theorem witness_TransformIsLoadThenWord : ∃ s : State, s.cnt = 0#2 := ⟨State.reset, rfl⟩

/-- The bounds of R45: the largest operands are taken, the next ones and the spec's 0x15C are not; and a line that parses. -/
theorem witness_AssemblerTakesExactlyWellFormedLines :
    expandLine ⟨.command .byte, [255]⟩ = some [.byte 0xFF#8] ∧ expandLine ⟨.command .byte, [256]⟩ = none ∧
    expandLine ⟨.command .byte, [0x15C]⟩ = none ∧
    expandLine ⟨.command .word, [4294967295]⟩ = some [.word 0xFFFFFFFF#32] ∧
    expandLine ⟨.command .word, [4294967296]⟩ = none ∧
    parseLine ['B', 'Y', 'T', 'E', ' ', '2', '5', '5'] = .ok (some ⟨.command .byte, [255]⟩) := by decide

theorem witness_AssembledWordsDecode :
    ∃ (text : List (List Char)) (ws : List Command), assemble text = .ok ws ∧ ws ≠ [] :=
  ⟨[['S', 'E', 'E', 'D'], ['B', 'Y', 'T', 'E', ' ', '7']], [0x100000000#36, 0x400000007#36], by decide, by decide⟩

end Sys2Proof.Tests
end

section
/-! PROOFS. The polynomial reading of 00_scope.md R11: the coefficients of a value's polynomial, the bits of POLY, and the
divider polynomial. -/

namespace Sys2Proof

open Polynomial

/-- R11's list of the bits set in POLY. -/
def polyBits : List Nat := [0, 1, 2, 4, 5, 7, 8, 10, 11, 12, 16, 22, 23, 26]

theorem coeff_polyOf (v : Word) (i : Nat) :
    (polyOf v).coeff i = if i < 32 ∧ v.getLsbD i = true then 1 else 0 := by
  have term_coeff (j : Nat) :
      (if v.getLsbD j then X ^ j else 0 : (ZMod 2)[X]).coeff i =
        if i = j then (if v.getLsbD j then 1 else 0) else 0 := by
    split <;> simp [coeff_X_pow]
  simp only [polyOf, finsetSum_coeff, term_coeff, Finset.sum_ite_eq, Finset.mem_range, ite_and]

/-- A value's polynomial is the sum of `x^i` over the bits set in it. -/
theorem polyOf_eq_sum_setBits (v : Word) :
    polyOf v = ∑ i ∈ (Finset.range 32).filter (fun i => v.getLsbD i = true), X ^ i :=
  (Finset.sum_filter _ _).symm

theorem lt_of_mem_polyBits : ∀ i ∈ polyBits, i < 32 := by decide

theorem getLsbD_poly_iff (i : Nat) : Machine.poly.getLsbD i = true ↔ i ∈ polyBits := by
  by_cases hi : i < 32
  · have below : ∀ j < 32, Machine.poly.getLsbD j = true ↔ j ∈ polyBits := by decide
    exact below i hi
  · exact iff_of_false (hi ∘ BitVec.lt_of_getLsbD) (hi ∘ lt_of_mem_polyBits i)

theorem polyOf_poly : polyOf Machine.poly = (polyBits.map (X ^ ·)).sum := by
  have setBits : (Finset.range 32).filter (fun i => Machine.poly.getLsbD i = true) = polyBits.toFinset := by
    ext i
    simpa [getLsbD_poly_iff] using lt_of_mem_polyBits i
  rw [polyOf_eq_sum_setBits, setBits, List.sum_toFinset _ (by decide)]

/-- `P(x)` written out (R11): the terms of POLY, from the list of its bits, below `x^32`. -/
theorem dividerPoly_eq :
    dividerPoly = X ^ 32 + X ^ 26 + X ^ 23 + X ^ 22 + X ^ 16 + X ^ 12 + X ^ 11 + X ^ 10 + X ^ 8 + X ^ 7 + X ^ 5 + X ^ 4 +
      X ^ 2 + X + 1 := by
  rw [dividerPoly, polyOf_poly]
  simp only [polyBits, List.map_cons, List.map_nil, List.sum_cons, List.sum_nil]
  ring

/-- Settles O11: every part is a lemma above. -/
theorem polynomialReading : Obligations.PolynomialReading :=
  ⟨coeff_polyOf, getLsbD_poly_iff, dividerPoly_eq⟩

end Sys2Proof
end

section
/-! PROOFS. The decoder reads back what the encoder writes, and a step on a command word is the command (30_encoding.md R42,
R45; 20_memory.md R32). -/

namespace Sys2Proof

theorem mnemonicOfOp_opcode (m : Mnemonic) : mnemonicOfOp m.opcode = some m := by
  cases m <;> rfl

/-- Format B keeps every byte (R39). -/
theorem formatB_setWidth (b : Byte) : formatB (b.setWidth 32) = some (.byte b) := by
  have unused : (b.setWidth 32).extractLsb' 8 24 = 0#24 := by
    ext i hi
    simp
  rw [formatB, if_pos unused, BitVec.extractLsb'_setWidth_of_le (by decide), BitVec.extractLsb'_eq_self]

theorem instrOfData_data (i : Instr) : instrOfData i.mnemonic i.data = some i := by
  cases i with
  | byte b => exact formatB_setWidth b
  | read | seed | load | word | finish | stat => rfl

/-- No bit of an encoding is dropped (R42, R45). -/
@[simp] theorem decode_encode (i : Instr) : decode (encode i) = .ok i := by
  simp [decode, encode, mnemonicOfOp_opcode, instrOfData_data]

namespace Machine

/-- A step on a command word that decodes performs its command, the word being consumed (R18, R32, R42). -/
theorem step_command {s : State} {w : Command} {rest : List HostInput} {i : Instr}
    (hs : s.inputs = .command w :: rest) (hw : decode w = .ok i) : step s = exec i (s.withInputs rest) :=
  (step_cons hs).trans (perform_ok hw _)

theorem withFetchWord_encode (s : State) (n : Nat) (i : Instr) :
    s.withFetchWord n (encode i).toNat = s.placeCommand (encode i) := by
  simp [State.withFetchWord, commandOfBits]

/-- Settles O16: `step_command`, and for a placed word that the decoder reads it back. -/
theorem stepRunsTheDecodedCommand : Obligations.StepRunsTheDecodedCommand := by
  refine ⟨fun s w rest i => step_command, fun s i => ?_⟩
  rw [withFetchWord_encode]
  exact step_command (s := s.placeCommand (encode i)) rfl (decode_encode i)

end Machine

end Sys2Proof
end

section
/-! PROOFS. The three registers under one command (10_state.md R14 to R16). `Performs` is `exec_cases` as a relation, so
that each fact about a performed command is one case per constructor. -/

namespace Sys2Proof.Machine

/-- What each command that is performed makes of a state: the next states of `exec`, with BYTE and FINISH split as R59 and R60
split them. -/
inductive Performs (s : State) : Instr → State → Prop where
  | read : Performs s .read (s.respond s.acc)
  | seed : Performs s .seed (s.seedRegs.respond Machine.seed)
  | load (v) : s.cnt = 0#2 → Performs s (.load v) ((s.setAcc v).respond v)
  | word (v) : s.cnt = 0#2 → Performs s (.word v) ((s.feed v).respond (transform s.acc v))
  | byte (b) : s.cnt ≠ 3#2 → Performs s (.byte b) ((s.pushByte b).respond s.acc)
  | lastByte (b) : s.cnt = 3#2 → Performs s (.byte b)
      ((s.feed (completedWord b s.asm)).clearAssembler.respond (transform s.acc (completedWord b s.asm)))
  | finish : s.cnt = 0#2 → Performs s .finish (s.clearAssembler.respond s.acc)
  | finishTail : s.cnt ≠ 0#2 → Performs s .finish
      ((s.feed (tailWord s.asm)).clearAssembler.respond (transform s.acc (tailWord s.asm)))
  | stat : Performs s .stat (s.respond (statusWord s.cnt s.asm))

theorem performs_of_exec {i : Instr} {s t : State} (h : exec i s = .next t) : Performs s i t := by
  rcases exec_cases i s with ⟨u, hu, hc⟩ | ⟨-, -, hr⟩
  · obtain rfl : u = t := by simpa [hu] using h
    rcases hc with ⟨rfl, rfl⟩ | ⟨rfl, rfl⟩ | ⟨v, rfl, hc, rfl⟩ | ⟨v, rfl, hc, rfl⟩ | ⟨b, rfl, hc, rfl⟩ |
      ⟨b, rfl, hc, rfl⟩ | ⟨rfl, rfl⟩ | ⟨rfl, rfl⟩
    · exact .read
    · exact .seed
    · exact .load v hc
    · exact .word v hc
    · exact .byte b hc
    · exact .lastByte b hc
    · rcases applyTail_cases s with ⟨hc, e⟩ | ⟨hc, e⟩ <;> rw [e]
      · exact .finish hc
      · exact .finishTail hc
    · exact .stat
  · simp [hr] at h

theorem exec_of_performs {i : Instr} {s t : State} (h : Performs s i t) : exec i s = .next t := by
  cases h with
  | read | seed | stat => rfl
  | load v hc | word v hc => exact if_pos hc
  | byte b hc => exact ((execByte_cases b s).resolve_right (hc ·.1)).2
  | lastByte b hc => exact ((execByte_cases b s).resolve_left (·.1 hc)).2
  | finish hc | finishTail hc => simp [exec, execFinish, State.applyTail, hc]

/-- A command ends in exactly the states of `Performs`. -/
theorem exec_eq_next_iff {i : Instr} {s t : State} : exec i s = .next t ↔ Performs s i t :=
  ⟨performs_of_exec, exec_of_performs⟩

variable {i : Instr} {s t : State}

/-- SEED leaves the reset values (R23, R58). -/
theorem Performs.regs_of_seed (h : Performs s .seed t) : t.regs = State.reset.regs := by
  cases h
  rfl

/-! ### ACC (R14) -/

theorem Performs.acc_writer (h : Performs s i t) (hacc : t.acc ≠ s.acc) :
    i.mnemonic = .seed ∨ i.mnemonic = .load ∨ i.mnemonic = .word ∨ (i.mnemonic = .byte ∧ s.cnt = 3#2) ∨
      (i.mnemonic = .finish ∧ s.cnt ≠ 0#2) := by
  cases h with
  | read | stat | byte | finish => exact absurd rfl hacc
  | seed => exact .inl rfl
  | load => exact .inr (.inl rfl)
  | word => exact .inr (.inr (.inl rfl))
  | lastByte b hc => exact .inr (.inr (.inr (.inl ⟨rfl, hc⟩)))
  | finishTail hc => exact .inr (.inr (.inr (.inr ⟨rfl, hc⟩)))

/-- D11: the response of every command but STAT. -/
theorem Performs.responds_acc (h : Performs s i t) (hi : i ≠ .stat) : t.responses = s.responses ++ [t.acc] := by
  cases h with
  | stat => exact absurd rfl hi
  | read | seed | load | word | byte | lastByte | finish | finishTail => rfl

/-- Settles O37, part by part. -/
theorem accumulatorWritersAndResponses : Obligations.AccumulatorWritersAndResponses :=
  ⟨fun _ _ _ h => (performs_of_exec h).acc_writer, fun _ _ _ h => (performs_of_exec h).responds_acc⟩

/-! ### The status word (R71) -/

theorem statusWord_cnt (cnt : BitVec 2) (asm : BitVec 24) : (statusWord cnt asm).extractLsb' 24 2 = cnt := by
  rw [statusWord, BitVec.extractLsb'_append_eq_of_le (by decide)]
  exact BitVec.extractLsb'_append_eq_right

theorem statusWord_asm (cnt : BitVec 2) (asm : BitVec 24) : (statusWord cnt asm).extractLsb' 0 24 = asm :=
  BitVec.extractLsb'_append_eq_right

theorem Performs.responds_status (h : Performs s .stat t) :
    t.responses = s.responses ++ [statusWord s.cnt s.asm] := by
  cases h
  rfl

/-! ### CNT (R16) -/

/-- One byte more, modulo 4, as a number. -/
theorem cnt_toNat_succ (c : BitVec 2) : (c + 1#2).toNat = (c.toNat + 1) % 4 :=
  BitVec.toNat_add c 1#2

theorem cnt_toNat_lt_three {c : BitVec 2} (hc : c ≠ 3#2) : c.toNat < 3 := by
  revert c
  decide

theorem Performs.cnt_of_seed_or_finish (h : Performs s i t) (hi : i = .seed ∨ i = .finish) : t.cnt = 0#2 := by
  cases h with
  | seed | finish | finishTail => rfl
  | read | load | word | byte | lastByte | stat => simp at hi

theorem Performs.cnt_of_byte {b : Byte} (h : Performs s (.byte b) t) : t.cnt = s.cnt + 1#2 := by
  cases h with
  | byte => rfl
  | lastByte _ hc => rw [hc]; rfl

/-- READ, LOAD, WORD and STAT touch neither register of the assembler (R15, R16). -/
theorem Performs.assembler_kept (h : Performs s i t) (hi : i.mnemonic ∈ [.read, .load, .word, .stat]) :
    t.asm = s.asm ∧ t.cnt = s.cnt := by
  cases h with
  | read | load | word | stat => exact ⟨rfl, rfl⟩
  | seed | byte | lastByte | finish | finishTail => simp [Instr.mnemonic] at hi

/-- LOAD and WORD are refused exactly with bytes pending (R53, R54). -/
theorem atChunkBoundary_refused_iff (i : Instr) (s t : State) :
    (∃ r, atChunkBoundary i s t = .refused r) ↔ s.cnt ≠ 0#2 := by
  rcases atChunkBoundary_cases i s t with ⟨hc, e⟩ | ⟨hc, e⟩ <;> simp [hc, e]

theorem exec_refused_iff (s : State) (hi : i.mnemonic ∈ [.load, .word]) :
    (∃ r, exec i s = .refused r) ↔ s.cnt ≠ 0#2 := by
  cases i with
  | load | word => exact atChunkBoundary_refused_iff _ s _
  | read | seed | byte | finish | stat => simp [Instr.mnemonic] at hi

/-- Settles O38, clause by clause of R16. -/
theorem countOfPendingBytes : Obligations.CountOfPendingBytes := by
  refine ⟨fun s t h => ?_, fun b s t h => ?_, fun i s t h hi => ((performs_of_exec h).assembler_kept hi).2,
    fun i s => exec_refused_iff s, fun s t h => ?_⟩
  · rcases h with h | h
    · exact (performs_of_exec h).cnt_of_seed_or_finish (.inl rfl)
    · exact (performs_of_exec h).cnt_of_seed_or_finish (.inr rfl)
  · rw [(performs_of_exec h).cnt_of_byte, cnt_toNat_succ]
  · exact ⟨_, (performs_of_exec h).responds_status, statusWord_cnt _ _⟩

/-! ### ASM (R15) -/

theorem Performs.asm_cleared (h : Performs s i t)
    (hi : i = .seed ∨ i = .finish ∨ (i.mnemonic = .byte ∧ s.cnt = 3#2)) : t.asm = 0#24 := by
  cases h with
  | seed | lastByte | finish | finishTail => rfl
  | read | load | word | stat => simp [Instr.mnemonic] at hi
  | byte _ hc => simp [hc] at hi

theorem Performs.asm_of_byte {b : Byte} (h : Performs s (.byte b) t) (hc : s.cnt ≠ 3#2) :
    t.asm = putLane s.asm s.cnt.toNat b := by
  cases h with
  | byte => rfl
  | lastByte _ h3 => exact absurd h3 hc

/-- Settles O39, clause by clause of R15; the lanes of a BYTE are those of `putLane`. -/
theorem pendingBytesRegister : Obligations.PendingBytesRegister := by
  refine ⟨fun i s t h => (performs_of_exec h).asm_cleared, fun b s t h hc k hk => ?_,
    fun i s t h hi => ((performs_of_exec h).assembler_kept hi).1, fun s t h => ?_⟩
  · rw [(performs_of_exec h).asm_of_byte hc]
    exact asmLane_putLane _ (cnt_toNat_lt_three hc) hk b
  · exact ⟨_, (performs_of_exec h).responds_status, statusWord_asm _ _⟩

end Sys2Proof.Machine
end

section
/-! PROOFS. The assembler invariant (10_state.md R17) under every command and every input but a loss of power. -/

namespace Sys2Proof.Machine

variable {s t : State}

theorem lanesClear_of_asm_eq_zero (h : s.asm = 0#24) : s.LanesClear := by
  simp [State.LanesClear, h]

/-- The byte goes into the lane that `CNT` stops claiming to be zero. -/
theorem lanesClear_pushByte (hs : s.LanesClear) (hc : s.cnt ≠ 3#2) (b : Byte) : (s.pushByte b).LanesClear := by
  have hlt := cnt_toNat_lt_three hc
  rw [lanesClear_iff] at hs ⊢
  intro k hk hle
  rw [State.pushByte_cnt, cnt_toNat_succ] at hle
  rw [State.pushByte_asm, asmLane_putLane _ hlt hk, if_neg (by omega)]
  exact hs k hk (by omega)

theorem Performs.lanesClear {i : Instr} (h : Performs s i t) (hs : s.LanesClear) : t.LanesClear := by
  cases h with
  | read | load | word | stat => exact hs
  | byte b hc => exact lanesClear_pushByte hs hc b
  | seed | lastByte | finish | finishTail => exact lanesClear_of_asm_eq_zero rfl

/-- The invariant bit by bit: `ASM` has no bit set at or above the lane of `CNT`. -/
theorem getLsbD_asm_of_lanesClear (hs : s.LanesClear) {n : Nat} (hn : 8 * s.cnt.toNat ≤ n) :
    s.asm.getLsbD n = false := by
  have bit := congrArg (·.getLsbD (n - 8 * s.cnt.toNat)) hs
  simpa [Nat.add_sub_cancel' hn] using bit

/-- What the invariant is for: FINISH's word is the zero-padded tail. -/
theorem tailWord_byte_eq_zero (hs : s.LanesClear) {k : Nat} (hk : s.cnt.toNat ≤ k) :
    (tailWord s.asm).extractLsb' (8 * k) 8 = 0#8 := by
  ext j hj
  simp [tailWord, getLsbD_asm_of_lanesClear hs (show 8 * s.cnt.toNat ≤ 8 * k + j by omega)]

/-- Settles O41, part by part. -/
theorem assemblerInvariantKept : Obligations.AssemblerInvariantKept := by
  refine ⟨lanesClear_of_asm_eq_zero rfl, fun i s t hs h => (performs_of_exec h).lanesClear hs, fun i s t hi h => ?_,
    fun s k hs hk _ => tailWord_byte_eq_zero hs hk⟩
  exact lanesClear_of_asm_eq_zero ((performs_of_exec h).asm_cleared (hi.imp_right .inl))

/-- Settles O42: `ASM` is 0 and nothing is issued. -/
theorem resetMeetsTheInvariant : Obligations.ResetMeetsTheInvariant :=
  ⟨lanesClear_of_asm_eq_zero rfl, List.not_mem_nil⟩

/-- A command word at the port goes on only as the command it decodes to (R42). -/
theorem exec_of_perform {w : Command} (h : perform w s = .next t) : ∃ i, decode w = .ok i ∧ exec i s = .next t := by
  cases hw : decode w with
  | ok i => exact ⟨i, rfl, (perform_ok hw s).symm.trans h⟩
  | error e =>
    cases e with
    | reservedOp => simp [perform_reservedOp hw] at h
    | nonzeroReservedData => simp [perform_nonzeroReservedData hw] at h

/-- A command that reset cancels leaves the reset values (R84). -/
theorem seedRegs_of_cancelByReset {w : Command} (h : cancelByReset w s = .next t) : t = s.seedRegs := by
  unfold cancelByReset at h
  split at h <;> cases h
  rfl

/-- No input touches the inputs that come after it. -/
theorem inputs_of_takeInput {x : HostInput} (h : takeInput x s = .next t) : t.inputs = s.inputs := by
  have same := takeInput_withInputs x s s.inputs
  rw [State.withInputs_self, h] at same
  have ht : t = t.withInputs s.inputs := Host.Outcome.next.inj same
  rw [ht, State.withInputs_inputs]

theorem lanesClear_of_takeInput {x : HostInput} (hx : x ≠ .powerLoss) (hs : s.LanesClear)
    (h : takeInput x s = .next t) : t.LanesClear := by
  cases x with
  | command w =>
    obtain ⟨i, -, hi⟩ := exec_of_perform h
    exact (performs_of_exec hi).lanesClear hs
  | wait =>
    cases h
    exact hs
  | reset =>
    cases h
    exact lanesClear_of_asm_eq_zero rfl
  | cancelled w => exact lanesClear_of_asm_eq_zero (congrArg State.asm (seedRegs_of_cancelByReset h))
  | powerLoss => exact absurd rfl hx

/-- A step idles with nothing to come, or takes the head of the inputs from a state that has the others still to come. -/
theorem step_cases (s : State) :
    (s.inputs = [] ∧ step s = .next s) ∨
    ∃ x rest, s.inputs = x :: rest ∧ step s = takeInput x (s.withInputs rest) := by
  cases hs : s.inputs with
  | nil => exact .inl ⟨rfl, by simp [step, hs, idle]⟩
  | cons x rest => exact .inr ⟨x, rest, rfl, step_cons hs⟩

/-- Settles O43: an idle step changes nothing, and an input that is no loss of power keeps the lanes clear and the later
inputs as they are. -/
theorem stepKeepsTheInvariant : Obligations.StepKeepsTheInvariant := by
  intro s t ⟨hlanes, hpower⟩ h
  rcases step_cases s with ⟨-, e⟩ | ⟨x, rest, hin, e⟩ <;> rw [e] at h
  · cases h
    exact ⟨hlanes, hpower⟩
  · obtain ⟨hx, hrest⟩ : .powerLoss ≠ x ∧ .powerLoss ∉ rest := by simpa [State.PowerHolds, hin] using hpower
    have ht : t.PowerHolds := by simpa [State.PowerHolds, inputs_of_takeInput h] using hrest
    exact ⟨lanesClear_of_takeInput (s := s.withInputs rest) hx.symm hlanes h, ht⟩

end Sys2Proof.Machine
end

section
/-! PROOFS. What was answered before decides nothing of a run's registers, so a run right after reset and one with a SEED first
end alike (10_state.md R23). -/

namespace Sys2Proof.Machine

/-- An outcome with two histories of responses put before its own. -/
theorem sameRegs_mapNext_afterResponses (o : Host.Outcome State Fault Refusal) (rs rs' : List Word) :
    SameRegs (mapNext (State.afterResponses rs) o) (mapNext (State.afterResponses rs') o) := by
  cases o with
  | next | refused => rfl
  | fault e => nomatch e

/-- One response more before a run changes neither its last registers nor its refusal. -/
theorem sameRegs_foldInputs_respond (l : List HostInput) (s : State) (v : Word) :
    SameRegs (foldInputs l s) (foldInputs l (s.respond v)) := by
  have hs : s = (s.startRun s.inputs).afterResponses s.responses := s.withInputs_eq_startRun s.inputs
  have hv : s.respond v = (s.startRun s.inputs).afterResponses (s.responses ++ [v]) :=
    (s.respond v).withInputs_eq_startRun s.inputs
  rw [hv, foldInputs_afterResponses]
  conv => arg 1; rw [hs, foldInputs_afterResponses]
  exact sameRegs_mapNext_afterResponses _ _ _

/-- A SEED at the head of the inputs (R58), by its word. -/
theorem foldInputs_seed (l : List HostInput) (s : State) :
    foldInputs (.command 0x100000000#36 :: l) s = foldInputs l (s.seedRegs.respond seed) := rfl

/-- Settles O26: the reset state is its own SEED but for the response. -/
theorem resetValues : Obligations.ResetValues := by
  refine ⟨rfl, rfl, rfl, fun s t h => (performs_of_exec h).regs_of_seed, fun l _ => ?_⟩
  rw [runInputs_eq_foldInputs, runInputs_eq_foldInputs, foldInputs_seed]
  exact sameRegs_foldInputs_respond l State.reset seed

end Sys2Proof.Machine
end

section
/-! PROOFS. The byte placement (00_scope.md R10, 20_memory.md R25): a word is its four bytes put together, the last byte of the
chunk on top. -/

namespace Sys2Proof.Machine

/-- `le_word` as a concatenation, which the library's lemmas about lanes speak of. -/
theorem leWord_eq_append (c0 c1 c2 c3 : Byte) : leWord c0 c1 c2 c3 = c3 ++ c2 ++ c1 ++ c0 := by
  have placed := BitVec.setWidth_append_append_append_eq_shiftLeft_setWidth_or (w'''' := 32)
    (b := c3) (b' := c2) (b'' := c1) (b''' := c0)
  rw [BitVec.setWidth_eq] at placed
  rw [placed]
  simp only [leWord, BitVec.or_comm, BitVec.or_assoc, Nat.reduceAdd]

@[simp] theorem leWord_lane_zero (c0 c1 c2 c3 : Byte) : (leWord c0 c1 c2 c3).extractLsb' 0 8 = c0 := by
  rw [leWord_eq_append]
  exact BitVec.extractLsb'_append_eq_right

@[simp] theorem leWord_lane_one (c0 c1 c2 c3 : Byte) : (leWord c0 c1 c2 c3).extractLsb' 8 8 = c1 := by
  rw [leWord_eq_append, BitVec.extractLsb'_append_eq_of_le (by decide)]
  exact BitVec.extractLsb'_append_eq_right

@[simp] theorem leWord_lane_two (c0 c1 c2 c3 : Byte) : (leWord c0 c1 c2 c3).extractLsb' 16 8 = c2 := by
  rw [leWord_eq_append, BitVec.extractLsb'_append_eq_of_le (by decide), BitVec.extractLsb'_append_eq_of_le (by decide)]
  exact BitVec.extractLsb'_append_eq_right

@[simp] theorem leWord_lane_three (c0 c1 c2 c3 : Byte) : (leWord c0 c1 c2 c3).extractLsb' 24 8 = c3 := by
  rw [leWord_eq_append, BitVec.extractLsb'_append_eq_of_le (by decide), BitVec.extractLsb'_append_eq_of_le (by decide)]
  exact BitVec.extractLsb'_append_eq_left

theorem leBytes_leWord (c0 c1 c2 c3 : Byte) : leBytes (leWord c0 c1 c2 c3) = [c0, c1, c2, c3] := by
  simp [leBytes]

theorem leWord_lanes (w : Word) :
    leWord (w.extractLsb' 0 8) (w.extractLsb' 8 8) (w.extractLsb' 16 8) (w.extractLsb' 24 8) = w := by
  calc leWord (w.extractLsb' 0 8) (w.extractLsb' 8 8) (w.extractLsb' 16 8) (w.extractLsb' 24 8)
    _ = w.extractLsb' 0 (8 + 8 + 8 + 8) := by
      rw [leWord_eq_append]
      iterate 3 rw [BitVec.extractLsb'_append_extractLsb'_eq_extractLsb' (by rfl)]
    _ = w := BitVec.extractLsb'_eq_self

/-- Settles O6: `le_bytes` lists the lanes of a word, and a word is its lanes put together. -/
theorem bytePlacementIsLittleEndian : Obligations.BytePlacementIsLittleEndian := by
  refine ⟨fun c0 c1 c2 c3 => ⟨leWord_lane_zero .., leWord_lane_one .., leWord_lane_two .., leWord_lane_three ..⟩,
    fun w c0 c1 c2 c3 => ⟨fun h => ?_, fun h => ?_⟩⟩
  · simp only [leBytes, List.cons.injEq, and_true] at h
    obtain ⟨rfl, rfl, rfl, rfl⟩ := h
    exact leWord_lanes w
  · rw [← h]
    exact leBytes_leWord c0 c1 c2 c3

end Sys2Proof.Machine
end

section
/-! PROOFS. The order in which a chunk's bytes are divided (20_memory.md R26): eight divider rounds use up the top byte of a
word and move the other three up one lane, since rounds are linear and only shift a word whose top byte is 0. -/

namespace Sys2Proof.Machine

theorem divRound_eq_xor (a : Word) : divRound a = (a <<< 1) ^^^ (if a[31] then poly else 0#32) := by
  unfold divRound
  split <;> simp

/-- A value XORed in twice is gone. -/
theorem ite_xor (x y : Bool) (p : Word) :
    (if x ^^ y then p else 0#32) = (if x then p else 0#32) ^^^ (if y then p else 0#32) := by
  cases x <;> cases y <;> simp

theorem divRound_xor (u v : Word) : divRound (u ^^^ v) = divRound u ^^^ divRound v := by
  simp only [divRound_eq_xor, BitVec.shiftLeft_xor_distrib, BitVec.getElem_xor, ite_xor]
  ac_rfl

theorem divRounds_xor (n : Nat) (u v : Word) : divRounds n (u ^^^ v) = divRounds n u ^^^ divRounds n v := by
  induction n generalizing u v with
  | zero => rfl
  | succ n ih => rw [divRounds, divRound_xor, ih, divRounds, divRounds]

/-- Rounds that shift out only zero bits never add the polynomial. -/
theorem divRounds_eq_shiftLeft {n : Nat} {v : Word} (h : ∀ i, 32 ≤ i + n → v.getLsbD i = false) :
    divRounds n v = v <<< n := by
  induction n generalizing v with
  | zero => exact (BitVec.shiftLeft_zero v).symm
  | succ n ih =>
    have top : v[31] = false := h 31 (by omega)
    have shifted : ∀ i, 32 ≤ i + n → (v <<< 1).getLsbD i = false := fun i hi => by
      simp [h (i - 1) (by omega)]
    rw [divRounds, show divRound v = v <<< 1 by simp [divRound, top], ih shifted, ← BitVec.shiftLeft_add, Nat.add_comm]

theorem leWord_eq_top_xor (c0 c1 c2 c3 : Byte) :
    leWord c0 c1 c2 c3 = (c3.setWidth 32 <<< 24) ^^^ leWord c0 c1 c2 0#8 := by
  ext i hi
  by_cases h : i < 24
  · simp [leWord, h]
  · simp (disch := omega) [leWord, h, BitVec.getLsbD_of_ge]

theorem divRounds_leWord (c0 c1 c2 : Byte) : divRounds 8 (leWord c0 c1 c2 0#8) = leWord 0#8 c0 c1 c2 := by
  have topZero : ∀ i, 32 ≤ i + 8 → (leWord c0 c1 c2 0#8).getLsbD i = false := fun i hi => by
    simp (disch := omega) [leWord, BitVec.getLsbD_of_ge]
  rw [divRounds_eq_shiftLeft topZero]
  simp [leWord, BitVec.shiftLeft_or_distrib, ← BitVec.shiftLeft_add]

/-- Eight rounds divide the top byte of a chunk and move the other three up one lane. -/
theorem divRounds_xor_leWord (a : Word) (c0 c1 c2 c3 : Byte) :
    divRounds 8 (a ^^^ leWord c0 c1 c2 c3) = divByte a c3 ^^^ leWord 0#8 c0 c1 c2 := by
  rw [leWord_eq_top_xor, ← BitVec.xor_assoc, divRounds_xor, divRounds_leWord, divByte]

theorem transform_eq_eight_rounds_four_times (a w : Word) :
    transform a w = divRounds 8 (divRounds 8 (divRounds 8 (divRounds 8 (a ^^^ w)))) := by
  simp only [← divRounds_add, transform, rounds]

/-- Settles O15: the four bytes come to the top lane one after another, the last byte of the chunk first, and then nothing of
the chunk is left. -/
theorem chunkIsDividedLastByteFirst : Obligations.ChunkIsDividedLastByteFirst := by
  intro a c0 c1 c2 c3
  have nothingLeft : leWord 0#8 0#8 0#8 0#8 = 0#32 := by decide
  rw [transform_eq_eight_rounds_four_times]
  simp only [divRounds_xor_leWord, nothingLeft, BitVec.xor_zero]

end Sys2Proof.Machine
end

section
/-! PROOFS. A run of command words is the left fold of the command rules (20_memory.md R32). -/

namespace Sys2Proof.Machine

theorem foldInputs_command (ws : List Command) (s : State) : foldInputs (ws.map .command) s = performAll ws s := by
  induction ws generalizing s with
  | nil => rfl
  | cons w ws ih =>
    rw [List.map_cons, foldInputs, takeInput, performAll]
    cases perform w s with
    | next t => exact ih t
    | fault r => rfl
    | refused r => rfl

/-- Settles O23: no command reads what is still to come, so the run is the fold of its inputs, each of them a command. -/
theorem runIsTheFoldOfTheCommands : Obligations.RunIsTheFoldOfTheCommands := fun ws s =>
  (runInputs_eq_foldInputs _ s).trans (foldInputs_command ws _)

end Sys2Proof.Machine
end

section
/-! PROOFS. What a performed command leaves unchanged (20_memory.md R30, 30_encoding.md R36). -/

namespace Sys2Proof.Machine

variable {i : Instr} {s t : State}

/-- The host's side of the port: one response and nothing else (R36). -/
theorem Performs.port_frame (h : Performs s i t) :
    t.inputs = s.inputs ∧ t.powerLosses = s.powerLosses ∧ ∃ v, t.responses = s.responses ++ [v] := by
  cases h with
  | read | seed | load | word | byte | lastByte | finish | finishTail | stat => exact ⟨rfl, rfl, _, rfl⟩

theorem Performs.regs_of_readback (h : Performs s i t) (hi : i.mnemonic ∈ [.read, .stat]) : t.regs = s.regs := by
  cases h with
  | read | stat => rfl
  | seed | load | word | byte | lastByte | finish | finishTail => simp [Instr.mnemonic] at hi

/-- Of the commands that write `ACC`, BYTE is one only at `CNT = 3` (R14). -/
theorem Performs.acc_of_byte (h : Performs s i t) (hi : i.mnemonic = .byte) (hc : s.cnt ≠ 3#2) : t.acc = s.acc := by
  by_contra hacc
  simpa [hi, hc] using h.acc_writer hacc

/-- Settles O40, clause by clause. -/
theorem commandFrame : Obligations.CommandFrame := by
  intro i s t h
  have hp : Performs s i t := performs_of_exec h
  obtain ⟨inputs, losses, response⟩ := hp.port_frame
  have wordCommands : [Mnemonic.load, .word] ⊆ [.read, .load, .word, .stat] := by decide
  exact ⟨inputs, losses, response, hp.regs_of_readback, fun hi => hp.assembler_kept (wordCommands hi), hp.acc_of_byte⟩

end Sys2Proof.Machine
end

section
/-! PROOFS. The decoder and the encoder are inverse to each other, and the decoder reads a word exactly where the opcode map
does (30_encoding.md R41, R42): both come down to the op and to the data bits that the format does not use. -/

namespace Sys2Proof

/-- Settles O2: no operand bit is dropped, which `decode_encode` says. -/
theorem decodeOfEncode : Obligations.DecodeOfEncode := decode_encode

/-! ### What the decoder reads (R42) -/

/-- The op column read backwards. -/
theorem opcode_of_mnemonicOfOp {op : BitVec 4} {m : Mnemonic} (h : mnemonicOfOp op = some m) : op = m.opcode := by
  have onAll : ∀ op : BitVec 4, ∀ m ∈ mnemonicOfOp op, op = m.opcode := by decide
  exact onAll op m h

theorem formatN_eq_some {i j : Instr} {d : BitVec 32} (h : formatN i d = some j) : j = i ∧ d = 0#32 := by
  obtain ⟨hd, hi⟩ : d = 0#32 ∧ i = j := by simpa [formatN] using h
  exact ⟨hi.symm, hd⟩

/-- A word with 0 in bits 31:8 is its low byte zero-extended (R39). -/
theorem setWidth_low_byte {d : BitVec 32} (h : d >>> 8 = 0#32) : (d.setWidth 8).setWidth 32 = d := by
  have high := congrArg BitVec.toNat h
  rw [BitVec.toNat_ushiftRight, Nat.shiftRight_eq_div_pow] at high
  apply BitVec.eq_of_toNat_eq
  simp only [BitVec.toNat_setWidth, BitVec.toNat_ofNat] at high ⊢
  omega

/-- `data[31:8]`, as the decoder reads it and as a shift. -/
theorem extractLsb'_high_eq_zero_iff (d : BitVec 32) : d.extractLsb' 8 24 = 0#24 ↔ d >>> 8 = 0#32 := by
  simp only [← BitVec.toNat_inj, BitVec.extractLsb'_toNat, BitVec.toNat_ushiftRight, BitVec.toNat_ofNat,
    Nat.shiftRight_eq_div_pow]
  omega

/-- `data[31:8]`, as a mask and as a shift. -/
theorem and_high_mask_eq_zero_iff (d : BitVec 32) : d &&& 0xFFFFFF00#32 = 0#32 ↔ d >>> 8 = 0#32 := by
  rw [show d &&& 0xFFFFFF00#32 = d >>> 8 <<< 8 from (BitVec.shiftLeft_ushiftRight (n := 8)).symm]
  simp only [← BitVec.toNat_inj, BitVec.toNat_shiftLeft, BitVec.toNat_ushiftRight, BitVec.toNat_ofNat,
    Nat.shiftRight_eq_div_pow, Nat.shiftLeft_eq]
  omega

theorem formatB_eq_some {j : Instr} {d : BitVec 32} (h : formatB d = some j) :
    j = .byte (d.setWidth 8) ∧ d >>> 8 = 0#32 := by
  rw [BitVec.setWidth_eq_extractLsb' (by decide), ← extractLsb'_high_eq_zero_iff]
  simpa [formatB, and_comm, eq_comm] using h

/-- What a known op reads from a data field is a command of that op with that data: nothing is dropped (R37 to R40). -/
theorem mnemonic_data_of_instrOfData {m : Mnemonic} {d : BitVec 32} {i : Instr} (h : instrOfData m d = some i) :
    i.mnemonic = m ∧ i.data = d := by
  cases m with
  | read | seed | finish | stat =>
    obtain ⟨rfl, rfl⟩ := formatN_eq_some h
    exact ⟨rfl, rfl⟩
  | load | word =>
    cases h
    exact ⟨rfl, rfl⟩
  | byte =>
    obtain ⟨rfl, hd⟩ := formatB_eq_some h
    exact ⟨rfl, setWidth_low_byte hd⟩

/-- The decoder by the word's two fields. -/
theorem decode_eq_ok_iff {w : Command} {i : Instr} :
    decode w = .ok i ↔ w.op = i.mnemonic.opcode ∧ instrOfData i.mnemonic w.data = some i := by
  constructor
  · intro h
    unfold decode at h
    split at h
    · cases h
    · next m hm =>
      split at h
      · cases h
      · next j hj =>
        cases h
        obtain ⟨rfl, -⟩ := mnemonic_data_of_instrOfData hj
        exact ⟨opcode_of_mnemonicOfOp hm, hj⟩
  · rintro ⟨hop, hi⟩
    simp [decode, hop, mnemonicOfOp_opcode, hi]

theorem encode_of_decode {w : Command} {i : Instr} (h : decode w = .ok i) : encode i = w := by
  obtain ⟨hop, hi⟩ := decode_eq_ok_iff.1 h
  rw [encode, ← hop, (mnemonic_data_of_instrOfData hi).2, op_append_data]

/-- Settles O3: the op and the data of the word are those of the command read from it. -/
theorem encodeOfDecode : Obligations.EncodeOfDecode := fun _ _ => encode_of_decode

/-! ### The rows of the opcode map (R41) -/

/-- The data bits that a format does not use, which must be 0 (R37 to R39). -/
def Format.unusedBits : Format → BitVec 32
  | .n => 0xFFFFFFFF#32
  | .w => 0x00000000#32
  | .b => 0xFFFFFF00#32

/-- A known op reads no command exactly where a data bit that its format does not use is set. -/
theorem instrOfData_eq_none_iff (m : Mnemonic) (d : BitVec 32) :
    instrOfData m d = none ↔ d &&& m.format.unusedBits ≠ 0#32 := by
  cases m with
  | read | seed | finish | stat =>
    have all : d &&& 0xFFFFFFFF#32 = d := BitVec.and_allOnes
    simp [instrOfData, formatN, Mnemonic.format, Format.unusedBits, all]
  | load | word => simp [instrOfData, Mnemonic.format, Format.unusedBits]
  | byte =>
    rw [show (Mnemonic.byte).format.unusedBits = 0xFFFFFF00#32 from rfl, Ne, and_high_mask_eq_zero_iff,
      ← extractLsb'_high_eq_zero_iff]
    simp [instrOfData, formatB]

theorem exists_decode_iff (w : Command) (m : Mnemonic) :
    (∃ i, decode w = .ok i ∧ i.mnemonic = m) ↔ w.op = m.opcode ∧ w.data &&& m.format.unusedBits = 0#32 := by
  have readable : (∃ i, instrOfData m w.data = some i) ↔ w.data &&& m.format.unusedBits = 0#32 := by
    rw [← Option.ne_none_iff_exists', Ne, instrOfData_eq_none_iff, not_not]
  rw [← readable]
  constructor
  · rintro ⟨i, h, rfl⟩
    obtain ⟨hop, hi⟩ := decode_eq_ok_iff.1 h
    exact ⟨hop, i, hi⟩
  · rintro ⟨hop, i, hi⟩
    obtain ⟨rfl, -⟩ := mnemonic_data_of_instrOfData hi
    exact ⟨i, decode_eq_ok_iff.2 ⟨hop, hi⟩, rfl⟩

/-- A row's match is its op with data 0, and its mask the op field and the data bits that its format does not use. -/
theorem code_mask_of_mem_opcodeTable : ∀ r ∈ opcodeTable,
    r.code = r.mnemonic.opcode ++ 0#32 ∧ r.mask = 0xF#4 ++ r.mnemonic.format.unusedBits := by decide

theorem row_eq_of_opcode_eq : ∀ r ∈ opcodeTable, ∀ q ∈ opcodeTable, r.mnemonic.opcode = q.mnemonic.opcode → r = q := by
  decide

theorem exists_row (m : Mnemonic) : ∃ r ∈ opcodeTable, r.mnemonic = m := by
  cases m <;> decide

theorem append_eq_append_iff {op op' : BitVec 4} {d d' : BitVec 32} :
    (op ++ d : Command) = op' ++ d' ↔ op = op' ∧ d = d' := by
  refine ⟨fun h => ⟨?_, ?_⟩, fun ⟨ho, hd⟩ => by rw [ho, hd]⟩
  · simpa using congrArg Command.op h
  · simpa using congrArg Command.data h

theorem covers_iff {r : OpcodeRow} (hr : r ∈ opcodeTable) (w : Command) :
    r.covers w ↔ w.op = r.mnemonic.opcode ∧ w.data &&& r.mnemonic.format.unusedBits = 0#32 := by
  obtain ⟨hcode, hmask⟩ := code_mask_of_mem_opcodeTable r hr
  have fields : w &&& r.mask = (w.op &&& 0xF#4) ++ (w.data &&& r.mnemonic.format.unusedBits) := by
    rw [hmask, ← BitVec.and_append, op_append_data]
  have allOnes : w.op &&& 0xF#4 = w.op := BitVec.and_allOnes
  rw [OpcodeRow.covers, fields, allOnes, hcode, append_eq_append_iff]

/-- Settles O4: a row covers a word by the op, which no other row has, and under the condition under which the decoder reads
the word. -/
theorem opcodeRowsMatchTheDecoder : Obligations.OpcodeRowsMatchTheDecoder := by
  refine ⟨fun w r hr q hq hrw hqw => ?_, fun w m => ?_⟩
  · obtain ⟨hopr, -⟩ := (covers_iff hr w).1 hrw
    obtain ⟨hopq, -⟩ := (covers_iff hq w).1 hqw
    exact row_eq_of_opcode_eq r hr q hq (hopr.symm.trans hopq)
  · rw [exists_decode_iff]
    constructor
    · intro h
      obtain ⟨r, hr, rfl⟩ := exists_row m
      exact ⟨r, hr, rfl, (covers_iff hr w).2 h⟩
    · rintro ⟨r, hr, rfl, h⟩
      exact (covers_iff hr w).1 h

end Sys2Proof
end

section
/-! PROOFS. Decoding is total (30_encoding.md R42): each case of R42 as a lemma about the op and the data as the rule writes
them. -/

namespace Sys2Proof

variable {w : Command}

theorem decode_reservedOp (h : 7 ≤ (w >>> 32).toNat) : decode w = .error .reservedOp := by
  rw [Command.shiftRight_toNat] at h
  have onAll : ∀ op : BitVec 4, 7 ≤ op.toNat → mnemonicOfOp op = none := by decide
  simp [decode, onAll _ h]

theorem decode_nonzeroReservedData {m : Mnemonic} (hop : (w >>> 32).toNat = m.opcode.toNat)
    (hd : w.setWidth 32 &&& m.format.unusedBits ≠ 0#32) : decode w = .error .nonzeroReservedData := by
  rw [Command.shiftRight_toNat, BitVec.toNat_inj] at hop
  rw [Command.setWidth_data, ← instrOfData_eq_none_iff] at hd
  simp [decode, hop, mnemonicOfOp_opcode, hd]

/-- A word with the op and the data of a command is that command's word. -/
theorem decode_of_fields {i : Instr} (hop : (w >>> 32).toNat = i.mnemonic.opcode.toNat) (hd : w.setWidth 32 = i.data) :
    decode w = .ok i := by
  rw [Command.shiftRight_toNat, BitVec.toNat_inj] at hop
  rw [Command.setWidth_data] at hd
  rw [← op_append_data w, hop, hd]
  exact decode_encode i

/-- The four commands without an operand take no data (R37). -/
theorem decode_nonzero_data_of_formatN (hop : (w >>> 32).toNat ∈ [0, 1, 5, 6]) (hd : w.setWidth 32 ≠ 0#32) :
    decode w = .error .nonzeroReservedData := by
  have ops : ∀ k ∈ [0, 1, 5, 6], ∃ m ∈ [Mnemonic.read, .seed, .finish, .stat], k = m.opcode.toNat ∧ m.format = .n := by
    decide
  obtain ⟨m, -, hop, hm⟩ := ops _ hop
  have all : w.setWidth 32 &&& Format.n.unusedBits = w.setWidth 32 := BitVec.and_allOnes
  exact decode_nonzeroReservedData hop (by rwa [hm, all])

theorem decode_byte (hop : (w >>> 32).toNat = 4) (hd : w.setWidth 32 >>> 8 = 0#32) :
    decode w = .ok (.byte (w.setWidth 8)) := by
  have low : (w.setWidth 32).setWidth 8 = w.setWidth 8 := BitVec.setWidth_setWidth_of_le w (by decide)
  refine decode_of_fields hop ?_
  rw [Instr.data, ← low, setWidth_low_byte hd]

/-- LOAD and WORD words are refused with RF3, and with their own word recorded, while bytes are pending (R53, R54, R76). -/
theorem perform_partialWord {i : Instr} (hw : decode w = .ok i) (hi : i.mnemonic ∈ [.load, .word])
    {s : Machine.State} (hs : s.cnt ≠ 0#2) : Machine.perform w s = .refused (.partialWord w s.cnt) := by
  rw [Machine.perform_ok hw, ← encode_of_decode hw]
  cases i with
  | load | word => exact if_neg hs
  | read | seed | byte | finish | stat => simp [Instr.mnemonic] at hi

/-- Settles O5, case by case of R42. -/
theorem decodingIsTotal : Obligations.DecodingIsTotal := by
  intro w
  have load (h : (w >>> 32).toNat = 2) : decode w = .ok (.load (w.setWidth 32)) := decode_of_fields h rfl
  have word (h : (w >>> 32).toNat = 3) : decode w = .ok (.word (w.setWidth 32)) := decode_of_fields h rfl
  refine ⟨decode_reservedOp, decode_nonzero_data_of_formatN, fun hop hd => ?_, decode_of_fields (i := .read),
    decode_of_fields (i := .seed), load, word, decode_byte, decode_of_fields (i := .finish),
    decode_of_fields (i := .stat), fun s hop hs => ?_⟩
  · exact decode_nonzeroReservedData (m := .byte) hop (mt (and_high_mask_eq_zero_iff _).1 hd)
  · rcases List.mem_pair.1 hop with hop | hop
    · exact perform_partialWord (load hop) (.head _) hs
    · exact perform_partialWord (word hop) (.tail _ (.head _)) hs

end Sys2Proof
end

section
/-! PROOFS. One response per performed command (30_encoding.md R36, 70_reset_and_hazards.md R92). -/

namespace Sys2Proof.Machine

/-- The first of the issued commands, and then the others. -/
theorem foldInputs_issued_cons (i : Instr) (is : List Instr) (s : State) :
    foldInputs (issued (i :: is)) s = andThen (exec i s) (foldInputs (issued is)) :=
  congrArg (andThen · _) (perform_ok (decode_encode i) s)

theorem responses_of_foldInputs_issued {is : List Instr} {s t : State} (h : foldInputs (issued is) s = .next t) :
    ∃ vs : List Word, vs.length = is.length ∧ t.responses = s.responses ++ vs := by
  induction is generalizing s with
  | nil =>
    cases h
    exact ⟨[], rfl, (List.append_nil _).symm⟩
  | cons i is ih =>
    rw [foldInputs_issued_cons] at h
    cases hi : exec i s with
    | next u =>
      rw [hi] at h
      obtain ⟨-, -, v, hv⟩ := (performs_of_exec hi).port_frame
      obtain ⟨vs, hlen, hvs⟩ := ih h
      exact ⟨v :: vs, congrArg (· + 1) hlen, by simp [hvs, hv]⟩
    | fault r | refused r => simp [hi, andThen] at h

/-- Settles O24: a run of commands is their fold, and each of them adds its one response. -/
theorem oneResponsePerCommand : Obligations.OneResponsePerCommand := by
  refine ⟨fun i s t h => ?_, fun is s t h => ?_⟩
  · obtain ⟨-, -, response⟩ := (performs_of_exec h).port_frame
    exact response
  · rw [issue, runInputs_eq_foldInputs] at h
    exact responses_of_foldInputs_issued (s := s.withInputs []) h

end Sys2Proof.Machine
end

section
/-! PROOFS. The assembler (30_encoding.md R45, R46): which lines stand for commands, and that every word of an assembled text is
a command's own. -/

namespace Sys2Proof

/-! ### Well-formed lines by the shape of their operands -/

theorem SourceLine.wellFormed_iff (l : SourceLine) :
    l.wellFormed = true ↔ l.countOk = true ∧ ∀ x ∈ l.operands, x < l.name.operandBound := by
  simp [SourceLine.wellFormed, SourceLine.rangeOk]

variable {ops : List Nat}

theorem wellFormed_noOperand_iff {m : Mnemonic} (hm : m.format = .n) :
    SourceLine.wellFormed ⟨.command m, ops⟩ = true ↔ ops = [] := by
  rw [SourceLine.wellFormed_iff]
  constructor
  · rintro ⟨hcount, -⟩
    simpa [SourceLine.countOk, hm] using hcount
  · rintro rfl
    simp [SourceLine.countOk, hm]

theorem wellFormed_oneOperand_iff {m : Mnemonic} (hm : m.format ≠ .n) :
    SourceLine.wellFormed ⟨.command m, ops⟩ = true ↔ ∃ x < SourceName.operandBound (.command m), ops = [x] := by
  have count : SourceLine.countOk ⟨.command m, ops⟩ = true ↔ ∃ x, ops = [x] := by
    cases hf : m.format with
    | n => exact absurd hf hm
    | w | b => simp [SourceLine.countOk, hf, List.length_eq_one_iff]
  rw [SourceLine.wellFormed_iff, count]
  constructor
  · rintro ⟨⟨x, rfl⟩, hx⟩
    exact ⟨x, hx x (.head _), rfl⟩
  · rintro ⟨x, hx, rfl⟩
    exact ⟨⟨x, rfl⟩, by simpa using hx⟩

theorem wellFormed_xform_iff :
    SourceLine.wellFormed ⟨.xform, ops⟩ = true ↔ ∃ a < 2 ^ 32, ∃ w < 2 ^ 32, ops = [a, w] := by
  rw [SourceLine.wellFormed_iff]
  constructor
  · rintro ⟨hcount, hrange⟩
    obtain ⟨a, w, rfl⟩ := List.length_eq_two.1 (beq_iff_eq.1 hcount)
    simp only [List.forall_mem_cons] at hrange
    obtain ⟨ha, hw, -⟩ := hrange
    exact ⟨a, ha, w, hw, rfl⟩
  · rintro ⟨a, ha, w, hw, rfl⟩
    exact ⟨rfl, List.forall_mem_cons.2 ⟨ha, List.forall_mem_singleton.2 hw⟩⟩

theorem wellFormed_wordle_iff :
    SourceLine.wellFormed ⟨.wordle, ops⟩ = true ↔
      ∃ c0 < 256, ∃ c1 < 256, ∃ c2 < 256, ∃ c3 < 256, ops = [c0, c1, c2, c3] := by
  rw [SourceLine.wellFormed_iff]
  constructor
  · rintro ⟨hcount, hrange⟩
    obtain ⟨c0, c1, c2, c3, rfl⟩ := List.length_eq_four.1 (beq_iff_eq.1 hcount)
    simp only [List.forall_mem_cons] at hrange
    obtain ⟨h0, h1, h2, h3, -⟩ := hrange
    exact ⟨c0, h0, c1, h1, c2, h2, c3, h3, rfl⟩
  · rintro ⟨c0, h0, c1, h1, c2, h2, c3, h3, rfl⟩
    exact ⟨rfl, by simp [SourceName.operandBound, h0, h1, h2, h3]⟩

theorem wellFormed_stream_iff : SourceLine.wellFormed ⟨.stream, ops⟩ = true ↔ ∀ x ∈ ops, x < 256 := by
  rw [SourceLine.wellFormed_iff]
  exact and_iff_right rfl

/-- A command's word is none of the reserved and illegal encodings (R43). -/
theorem wellFormed_encode (i : Instr) : (encode i).wellFormed = true := by
  cases i with
  | read => exact Laws.EncodesItsRow.read.2
  | seed => exact Laws.EncodesItsRow.seed.2
  | load v => exact (Laws.EncodesItsRow.load v).2
  | word v => exact (Laws.EncodesItsRow.word v).2
  | byte b => exact (Laws.EncodesItsRow.byte b).2
  | finish => exact Laws.EncodesItsRow.finish.2
  | stat => exact Laws.EncodesItsRow.stat.2

namespace Machine

/-! ### The commands of a line -/

variable {is : List Instr}

theorem wellFormed_of_expandLine {l : SourceLine} (h : expandLine l = some is) : l.wellFormed = true := by
  by_contra hl
  simp [expandLine, hl] at h

/-- A line stands for no other commands than those it stands for when it is well formed. -/
theorem expandLine_iff {l : SourceLine} {cmds : List Instr} (hl : l.wellFormed = true → expandLine l = some cmds) :
    expandLine l = some is ↔ l.wellFormed = true ∧ is = cmds := by
  constructor
  · intro h
    have hw := wellFormed_of_expandLine h
    exact ⟨hw, Option.some.inj (h.symm.trans (hl hw))⟩
  · rintro ⟨hw, rfl⟩
    exact hl hw

theorem expandLine_noOperand_iff {i : Instr} (hi : i.mnemonic.format = .n) :
    expandLine ⟨.command i.mnemonic, ops⟩ = some is ↔ ops = [] ∧ is = [i] := by
  rw [← wellFormed_noOperand_iff hi]
  refine expandLine_iff fun hw => ?_
  obtain rfl := (wellFormed_noOperand_iff hi).1 hw
  cases i with
  | load | word | byte => cases hi
  | read | seed | finish | stat => rfl

/-- LOAD, WORD and BYTE, each with the command it makes of its operand. -/
theorem expandLine_oneOperand_iff {m : Mnemonic} (hm : m.format ≠ .n) {command : Nat → Instr}
    (hc : ∀ x, SourceLine.wellFormed ⟨.command m, [x]⟩ = true → expandLine ⟨.command m, [x]⟩ = some [command x]) :
    expandLine ⟨.command m, ops⟩ = some is ↔
      ∃ x < SourceName.operandBound (.command m), ops = [x] ∧ is = [command x] := by
  constructor
  · intro h
    obtain ⟨x, hx, rfl⟩ := (wellFormed_oneOperand_iff hm).1 (wellFormed_of_expandLine h)
    exact ⟨x, hx, rfl, ((expandLine_iff (hc x)).1 h).2⟩
  · rintro ⟨x, hx, rfl, rfl⟩
    exact hc x ((wellFormed_oneOperand_iff hm).2 ⟨x, hx, rfl⟩)

theorem expandLine_xform_iff :
    expandLine ⟨.xform, ops⟩ = some is ↔
      ∃ a < 2 ^ 32, ∃ w < 2 ^ 32, ops = [a, w] ∧ is = xform (BitVec.ofNat 32 a) (BitVec.ofNat 32 w) := by
  constructor
  · intro h
    obtain ⟨a, ha, w, hw, rfl⟩ := wellFormed_xform_iff.1 (wellFormed_of_expandLine h)
    exact ⟨a, ha, w, hw, rfl, ((expandLine_iff fun hl => by rw [expandLine, if_pos hl]).1 h).2⟩
  · rintro ⟨a, ha, w, hw, rfl, rfl⟩
    exact if_pos (wellFormed_xform_iff.2 ⟨a, ha, w, hw, rfl⟩)

theorem expandLine_wordle_iff :
    expandLine ⟨.wordle, ops⟩ = some is ↔
      ∃ c0 < 256, ∃ c1 < 256, ∃ c2 < 256, ∃ c3 < 256, ops = [c0, c1, c2, c3] ∧
        is = wordle (BitVec.ofNat 8 c0) (BitVec.ofNat 8 c1) (BitVec.ofNat 8 c2) (BitVec.ofNat 8 c3) := by
  constructor
  · intro h
    obtain ⟨c0, h0, c1, h1, c2, h2, c3, h3, rfl⟩ := wellFormed_wordle_iff.1 (wellFormed_of_expandLine h)
    exact ⟨c0, h0, c1, h1, c2, h2, c3, h3, rfl, ((expandLine_iff fun hl => by rw [expandLine, if_pos hl]).1 h).2⟩
  · rintro ⟨c0, h0, c1, h1, c2, h2, c3, h3, rfl, rfl⟩
    exact if_pos (wellFormed_wordle_iff.2 ⟨c0, h0, c1, h1, c2, h2, c3, h3, rfl⟩)

theorem expandLine_stream_iff :
    expandLine ⟨.stream, ops⟩ = some is ↔
      (∀ x ∈ ops, x < 256) ∧ is = .seed :: (ops.map (fun x => .byte (BitVec.ofNat 8 x)) ++ [.finish]) := by
  have bytes : feedBytes (ops.map (BitVec.ofNat 8)) = ops.map (fun x => .byte (BitVec.ofNat 8 x)) := List.map_map
  rw [← wellFormed_stream_iff, ← bytes]
  exact expandLine_iff (if_pos ·)

/-! ### The words of a line and of a text -/

theorem assembleLine_eq_ok_iff {cs : List Char} {l : SourceLine} (hl : parseLine cs = .ok (some l)) (ws : List Command) :
    assembleLine cs = .ok ws ↔ ∃ is, expandLine l = some is ∧ ws = is.map encode := by
  cases he : expandLine l with
  | none => by_cases hc : l.countOk = true <;> simp [assembleLine, hl, hc, he]
  | some is =>
    have hc : l.countOk = true := (l.wellFormed_iff.1 (wellFormed_of_expandLine he)).1
    simp [assembleLine, hl, hc, he, eq_comm]

/-- Settles O54, name by name. -/
theorem assemblerTakesExactlyWellFormedLines : Obligations.AssemblerTakesExactlyWellFormedLines := by
  refine ⟨fun ops is => ⟨expandLine_noOperand_iff (i := .read) rfl, expandLine_noOperand_iff (i := .seed) rfl, ?load, ?word,
    ?byte, expandLine_noOperand_iff (i := .finish) rfl, expandLine_noOperand_iff (i := .stat) rfl, expandLine_xform_iff,
    expandLine_wordle_iff, expandLine_stream_iff⟩, fun cs l ws hl => assembleLine_eq_ok_iff hl ws⟩
  case load | word | byte => exact expandLine_oneOperand_iff (by decide) fun x hl => by rw [expandLine, if_pos hl]

theorem eq_map_encode_of_assembleLine {cs : List Char} {ws : List Command} (h : assembleLine cs = .ok ws) :
    ∃ is : List Instr, ws = is.map encode := by
  cases hl : parseLine cs with
  | error e => simp [assembleLine, hl] at h
  | ok line =>
    cases line with
    | none => exact ⟨[], by simpa [assembleLine, hl, eq_comm] using h⟩
    | some l =>
      obtain ⟨is, -, hws⟩ := (assembleLine_eq_ok_iff hl ws).1 h
      exact ⟨is, hws⟩

theorem eq_map_encode_of_assemble {text : List (List Char)} {ws : List Command} (h : assemble text = .ok ws) :
    ∃ is : List Instr, ws = is.map encode := by
  induction text generalizing ws with
  | nil =>
    cases h
    exact ⟨[], rfl⟩
  | cons l ls ih =>
    rw [assemble] at h
    split at h
    · cases h
    · next first hfirst =>
      split at h
      · cases h
      · next rest hrest =>
        cases h
        obtain ⟨is, rfl⟩ := eq_map_encode_of_assembleLine hfirst
        obtain ⟨js, rfl⟩ := ih hrest
        exact ⟨is ++ js, List.map_append.symm⟩

/-- Settles O55: the words of a text are words of commands, whichever lines they come from. -/
theorem assembledWordsDecode : Obligations.AssembledWordsDecode := by
  intro text ws h w hw
  obtain ⟨is, rfl⟩ := eq_map_encode_of_assemble h
  obtain ⟨i, -, rfl⟩ := List.mem_map.1 hw
  exact ⟨wellFormed_encode i, i, decode_encode i, rfl⟩

end Machine

end Sys2Proof
end

section
/-! PROOFS. The divider round and the word transform as functions (40_word_transform.md R48, R49, R51, R55): their values in
numbers, and what linearity makes of a round that keeps every value but 0 from 0. -/

namespace Sys2Proof.Machine

/-! ### The round in numbers (R48) -/

theorem getElem_31_iff (a : Word) : a[31] = true ↔ 2 ^ 31 ≤ a.toNat := by
  have top : a[31] = a.msb := (BitVec.msb_eq_getLsbD_last a).symm
  rw [top, BitVec.msb_eq_decide, decide_eq_true_iff]

theorem toNat_divRound (a : Word) : (divRound a).toNat =
    if 2 ^ 31 ≤ a.toNat then (2 * a.toNat % 2 ^ 32) ^^^ 0x04C11DB7 else 2 * a.toNat % 2 ^ 32 := by
  have shifted : (a <<< 1).toNat = 2 * a.toNat % 2 ^ 32 := by
    rw [BitVec.toNat_shiftLeft, Nat.shiftLeft_eq, Nat.mul_comm]
  simp only [divRound, getElem_31_iff]
  split
  · rw [BitVec.toNat_xor, shifted]
    rfl
  · exact shifted

/-- Settles O7: the round in numbers, and its four corner cases computed. -/
theorem dividerRound : Obligations.DividerRound :=
  ⟨toNat_divRound, by decide, by decide, by decide, by decide⟩

/-! ### The transform as 32 rounds on `a ^ w` (R49, R51 items 1 to 3) -/

theorem divRounds_eq_iterate (n : Nat) : divRounds n = divRound^[n] := by
  induction n with
  | zero => rfl
  | succ n ih =>
    funext x
    rw [divRounds, ih, Function.iterate_succ_apply]

theorem transform_eq_iterate (a w : Word) : transform a w = divRound^[32] (a ^^^ w) :=
  congrFun (divRounds_eq_iterate 32) (a ^^^ w)

/-- Settles O8: the model's rounds are the iterates of the round. -/
theorem wordTransformIsThirtyTwoRounds : Obligations.WordTransformIsThirtyTwoRounds := transform_eq_iterate

theorem transform_zero_left (v : Word) : transform 0#32 v = divRounds rounds v := by
  rw [transform, BitVec.zero_xor]

theorem transform_zero_right (v : Word) : transform v 0#32 = divRounds rounds v := by
  rw [transform, BitVec.xor_zero]

theorem divRounds_zero (n : Nat) : divRounds n 0#32 = 0#32 := by
  simpa using divRounds_xor n 0#32 0#32

@[simp] theorem transform_self (x : Word) : transform x x = 0#32 := by
  rw [transform, BitVec.xor_self, divRounds_zero]

/-- Settles O9: both sides are the rounds on `a ^ w`, and the rounds keep 0. -/
theorem transformDependsOnXor : Obligations.TransformDependsOnXor :=
  ⟨fun a w => ⟨(transform_zero_left (a ^^^ w)).symm, (transform_zero_right (a ^^^ w)).symm⟩, transform_self⟩

theorem transform_xor (a1 a2 w1 w2 : Word) :
    transform (a1 ^^^ a2) (w1 ^^^ w2) = transform a1 w1 ^^^ transform a2 w2 := by
  have regroup : a1 ^^^ a2 ^^^ (w1 ^^^ w2) = (a1 ^^^ w1) ^^^ (a2 ^^^ w2) := by ac_rfl
  rw [transform, regroup, divRounds_xor, transform, transform]

/-- Settles O10: the round is linear, so any number of rounds on an XOR is. -/
theorem transformIsLinear : Obligations.TransformIsLinear := ⟨divRound_xor, transform_xor⟩

/-! ### Injectivity (R51 item 5) -/

/-- The constant term of `P(x)` is 1: a round that adds POLY sets bit 0, and one that does not only shifts. -/
theorem eq_zero_of_divRound_eq_zero {v : Word} (h : divRound v = 0#32) : v = 0#32 := by
  have bit (i : Nat) : (divRound v).getLsbD i = false := by rw [h, BitVec.getLsbD_zero]
  rw [divRound] at bit
  split at bit
  · have polyBitZero : poly[0] = true := by decide
    simpa [polyBitZero] using bit 0
  · next top =>
    ext i hi
    by_cases hlast : i = 31
    · subst hlast
      simpa using top
    · have hi' : i + 1 < 32 := by omega
      simpa [hi, hi'] using bit (i + 1)

theorem divRounds_eq_zero_iff (n : Nat) (v : Word) : divRounds n v = 0#32 ↔ v = 0#32 := by
  refine ⟨fun h => ?_, fun h => h ▸ divRounds_zero n⟩
  induction n generalizing v with
  | zero => exact h
  | succ n ih => exact eq_zero_of_divRound_eq_zero (ih _ h)

/-- By linearity, two values that the rounds take to one result differ by a value that they take to 0. -/
theorem divRounds_injective (n : Nat) : Function.Injective (divRounds n) := fun u v h => by
  rwa [← BitVec.xor_eq_zero_iff, ← divRounds_xor, divRounds_eq_zero_iff, BitVec.xor_eq_zero_iff] at h

/-- Settles O13: the rounds are injective on finitely many values, and take only 0 to 0. -/
theorem transformIsBijective : Obligations.TransformIsBijective := by
  have injective : Function.Injective (divRounds rounds) := divRounds_injective rounds
  refine ⟨?_, fun a1 w1 a2 w2 => injective.ne, fun a w => ?_⟩
  · rw [← Finite.injective_iff_bijective, funext transform_zero_left]
    exact injective
  · rw [transform, divRounds_eq_zero_iff, BitVec.xor_eq_zero_iff]

/-! ### The byte-serial view (R55) -/

/-- Settles O14: a word is the chunk of its four lanes, and a chunk is divided last byte first (R26). -/
theorem byteSerialTransform : Obligations.ByteSerialTransform := fun a w => by
  rw [← chunkIsDividedLastByteFirst, leWord_lanes]

end Sys2Proof.Machine
end

section
/-! PROOFS. A divider round multiplies by `x` modulo `P(x)` (40_word_transform.md R51 item 4): the shift multiplies by `x`, and
the polynomial XORed in takes away the `x^32` that the shift discards. -/

namespace Sys2Proof

open Polynomial

theorem polyOf_xor (u v : Word) : polyOf (u ^^^ v) = polyOf u + polyOf v := by
  have addBits (x y : Bool) : (if (x ^^ y) = true then 1 else 0 : ZMod 2) = (if x then 1 else 0) + (if y then 1 else 0) := by
    revert x y
    decide
  ext i
  simp only [coeff_add, coeff_polyOf, BitVec.getLsbD_xor, ite_and]
  split
  · exact addBits _ _
  · exact (add_zero 0).symm

theorem polyOf_mul_X_eq_shiftLeft (v : Word) :
    polyOf v * X = polyOf (v <<< 1) + (if v[31] then X ^ 32 else 0) := by
  have top : v[31] = v.getLsbD 31 := rfl
  have coeffTop (i : Nat) : (if v[31] then X ^ 32 else 0 : (ZMod 2)[X]).coeff i =
      if i = 32 ∧ v.getLsbD 31 = true then 1 else 0 := by
    rw [top]
    cases v.getLsbD 31 <;> simp [coeff_X_pow]
  ext i
  cases i with
  | zero => simp [coeff_polyOf, coeffTop]
  | succ i =>
    rw [coeff_mul_X, coeff_add, coeffTop, coeff_polyOf, coeff_polyOf]
    by_cases hi : i = 31
    · simp [hi]
    · have below : i < 32 ↔ i + 1 < 32 := by omega
      simp [hi, below]

theorem polyOf_mul_X (v : Word) :
    polyOf v * X = polyOf (Machine.divRound v) + (if v[31] then dividerPoly else 0) := by
  rw [polyOf_mul_X_eq_shiftLeft, Machine.divRound]
  split
  · have cancel : polyOf Machine.poly + polyOf Machine.poly = 0 := CharTwo.add_self_eq_zero _
    rw [polyOf_xor, dividerPoly]
    linear_combination -cancel
  · rfl

theorem dividerPoly_dvd_round (v : Word) : dividerPoly ∣ polyOf v * X - polyOf (Machine.divRound v) := by
  rw [polyOf_mul_X, add_sub_cancel_left]
  split
  · exact dvd_rfl
  · exact dvd_zero _

theorem dividerPoly_dvd_rounds (n : Nat) (v : Word) :
    dividerPoly ∣ polyOf v * X ^ n - polyOf (Machine.divRounds n v) := by
  induction n generalizing v with
  | zero => simp [Machine.divRounds]
  | succ n ih =>
    have telescope : polyOf v * X ^ (n + 1) - polyOf (Machine.divRounds (n + 1) v) =
        (polyOf v * X - polyOf (Machine.divRound v)) * X ^ n +
          (polyOf (Machine.divRound v) * X ^ n - polyOf (Machine.divRounds n (Machine.divRound v))) := by
      rw [Machine.divRounds]
      ring
    rw [telescope]
    exact dvd_add (dvd_mul_of_dvd_left (dividerPoly_dvd_round v) _) (ih _)

theorem degree_polyOf_lt (v : Word) : (polyOf v).degree < (32 : Nat) := by
  rw [degree_lt_iff_coeff_zero]
  intro i hi
  rw [coeff_polyOf, if_neg fun ⟨hlt, _⟩ => hlt.not_ge hi]

theorem dividerPoly_monic : dividerPoly.Monic := monic_X_pow_add (degree_polyOf_lt _)

theorem degree_dividerPoly : dividerPoly.degree = (32 : Nat) := by
  rw [dividerPoly, degree_add_eq_left_of_degree_lt] <;> rw [degree_X_pow]
  exact degree_polyOf_lt _

/-- Rounds give the remainder itself: a value's polynomial has a degree below that of `P(x)`. -/
theorem polyOf_divRounds (n : Nat) (v : Word) :
    polyOf (Machine.divRounds n v) = (polyOf v * X ^ n) %ₘ dividerPoly := by
  have reduced : (polyOf (Machine.divRounds n v)).degree < dividerPoly.degree := by
    rw [degree_dividerPoly]
    exact degree_polyOf_lt _
  rw [modByMonic_eq_of_dvd_sub dividerPoly_monic (dividerPoly_dvd_rounds n v),
    (modByMonic_eq_self_iff dividerPoly_monic).2 reduced]

/-- Settles O12: one round and 32 rounds of `polyOf_divRounds`. -/
theorem transformIsPolynomialDivision : Obligations.TransformIsPolynomialDivision := by
  refine ⟨fun v => ?_, fun a w => polyOf_divRounds 32 (a ^^^ w)⟩
  rw [← pow_one X]
  exact polyOf_divRounds 1 v

end Sys2Proof
end

section
/-! PROOFS. LOAD and WORD (40_word_transform.md R53, R54), and the pair of them that is the source's transform (R56). -/

namespace Sys2Proof.Machine

variable {s : State}

theorem exec_load_of_boundary (hc : s.cnt = 0#2) (v : Word) :
    exec (.load v) s = .next { s with acc := v, responses := s.responses ++ [v] } :=
  exec_of_performs (.load v hc)

theorem exec_word_of_boundary (hc : s.cnt = 0#2) (v : Word) :
    exec (.word v) s =
      .next { s with acc := transform s.acc v, responses := s.responses ++ [transform s.acc v] } :=
  exec_of_performs (.word v hc)

/-- RF3 (R76). -/
theorem exec_refused_of_pending {i : Instr} (hi : i.mnemonic ∈ [.load, .word]) (hc : s.cnt ≠ 0#2) :
    exec i s = .refused (.partialWord (encode i) s.cnt) := by
  rw [← perform_ok (decode_encode i), perform_partialWord (decode_encode i) hi hc]

/-- R17 at a chunk boundary. -/
theorem asm_eq_zero_of_lanesClear (hs : s.LanesClear) (hc : s.cnt = 0#2) : s.asm = 0#24 := by
  simpa [State.LanesClear, hc] using hs

theorem regs_load_seed_eq_seed {t u : State} (hs : s.LanesClear) (ht : Performs s (.load 0xFFFFFFFF#32) t)
    (hu : Performs s .seed u) : t.regs = u.regs := by
  cases ht with
  | load _ hc =>
    rw [hu.regs_of_seed]
    simp [State.regs, State.reset, asm_eq_zero_of_lanesClear hs hc, hc]

theorem responses_read_after_load {v : Word} {t u : State} (ht : Performs s (.load v) t) (hu : Performs t .read u) :
    u.responses = t.responses ++ [v] := by
  cases ht
  cases hu
  rfl

/-- Settles O33, clause by clause. -/
theorem loadResult : Obligations.LoadResult :=
  ⟨fun _ => rfl, fun v _ hc => exec_load_of_boundary hc v, fun _ _ hc => exec_refused_of_pending (.head _) hc,
    fun _ _ _ hs ht hu => regs_load_seed_eq_seed hs (performs_of_exec ht) (performs_of_exec hu),
    fun _ _ _ _ ht hu => responses_read_after_load (performs_of_exec ht) (performs_of_exec hu),
    fun _ _ hc => exec_load_of_boundary hc _⟩

/-- WORD from a known accumulator: its result is the value of the transform there. -/
theorem exec_word_result {a v r : Word} (hc : s.cnt = 0#2) (hr : transform a v = r) (ha : s.acc = a) :
    ∃ t, exec (.word v) s = .next t ∧ t.acc = r ∧ t.responses = s.responses ++ [r] := by
  subst ha hr
  exact ⟨_, exec_word_of_boundary hc v, rfl, rfl⟩

theorem exec_word_acc {a v r : Word} (hc : s.cnt = 0#2) (hr : transform a v = r) (ha : s.acc = a) :
    ∃ t, exec (.word v) s = .next t ∧ t.acc = r := by
  obtain ⟨t, ht, hacc, -⟩ := exec_word_result hc hr ha
  exact ⟨t, ht, hacc⟩

/-- Settles O34: the next state by R49, RF3, and the corner cases as values of the transform. -/
theorem wordResult : Obligations.WordResult := by
  refine ⟨fun _ => rfl, fun v s hc => ?_, fun _ _ hc => exec_refused_of_pending (.tail _ (.head _)) hc,
    fun s hc => exec_word_acc hc (transform_self s.acc) rfl,
    fun s hc => ⟨exec_word_acc hc (transform_self _), exec_word_acc hc ?_, exec_word_acc hc ?_, exec_word_acc hc ?_,
      exec_word_result hc ?_⟩⟩
  · rw [← transform_eq_iterate]
    exact exec_word_of_boundary hc v
  all_goals decide +kernel

/-- Settles O53: LOAD leaves `CNT` at 0, so WORD is performed too, on the accumulator that LOAD set. -/
theorem transformIsLoadThenWord : Obligations.TransformIsLoadThenWord := by
  intro s a w hc
  rw [issue, runInputs_eq_foldInputs, xform, foldInputs_issued_cons, exec_load_of_boundary, andThen,
    foldInputs_issued_cons, exec_word_of_boundary, andThen]
  case hc | hc => exact hc
  simp [issued, foldInputs]

end Sys2Proof.Machine
end

section
/-! PROOFS. The words that BYTE and FINISH make of the pending bytes (30_encoding.md R40, 10_state.md R17), and the results of
SEED and BYTE (41_stream.md R58, R59). -/

namespace Sys2Proof.Machine

variable {s : State}

theorem encode_byte (b : Byte) : encode (.byte b) = 0x4#4 ++ 0x000000#24 ++ b := by
  have data : b.setWidth 32 = 0x000000#24 ++ b := BitVec.setWidth_eq_append (by decide)
  rw [encode, Instr.data, data, BitVec.append_assoc, BitVec.cast_eq]
  rfl

/-- The three bytes that wait in `ASM`, and the one that completes the chunk on top (R40, R59). -/
theorem completedWord_eq_leWord (b : Byte) (asm : BitVec 24) :
    completedWord b asm = leWord (asmLane asm 0) (asmLane asm 1) (asmLane asm 2) b := by
  have lane (k : Nat) (hk : 8 * k + 8 ≤ 24) : (completedWord b asm).extractLsb' (8 * k) 8 = asmLane asm k :=
    BitVec.extractLsb'_append_eq_of_add_le hk
  have top : (completedWord b asm).extractLsb' 24 8 = b := BitVec.extractLsb'_append_eq_left
  rw [← leWord_lanes (completedWord b asm), top, ← lane 0 (by decide), ← lane 1 (by decide), ← lane 2 (by decide)]

/-- The tail is the chunk that a zero byte completes (R17, R60). -/
theorem tailWord_eq_completedWord (asm : BitVec 24) : tailWord asm = completedWord 0#8 asm :=
  BitVec.setWidth_eq_append (by decide)

/-- Settles O32: SEED leaves the reset registers, whatever they were. -/
theorem seedResult : Obligations.SeedResult := by
  refine ⟨rfl, fun s => rfl, fun t ht => (performs_of_exec ht).regs_of_seed, fun s t u ht hu => ?_⟩
  rw [(performs_of_exec hu).regs_of_seed, (performs_of_exec ht).regs_of_seed]

theorem exec_lastByte (b : Byte) (hc : s.cnt = 3#2) :
    exec (.byte b) s = .next { s with
      acc := transform s.acc (leWord (asmLane s.asm 0) (asmLane s.asm 1) (asmLane s.asm 2) b), asm := 0#24, cnt := 0#2,
      responses := s.responses ++
        [transform s.acc (leWord (asmLane s.asm 0) (asmLane s.asm 1) (asmLane s.asm 2) b)] } := by
  rw [exec_of_performs (.lastByte b hc), completedWord_eq_leWord]
  rfl

/-- Settles O35: the byte goes to its lane by `asmLane_putLane`, and the fourth one completes the word of the four bytes. -/
theorem byteResult : Obligations.ByteResult := by
  refine ⟨encode_byte, fun b s hc => ?_, fun b s hc => exec_lastByte b hc, fun s hacc hasm hc => ?_⟩
  · have hlt := cnt_toNat_lt_three hc
    refine ⟨putLane s.asm s.cnt.toNat b, exec_of_performs (.byte b hc), ?_, fun k hk hne => ?_⟩
    · rw [asmLane_putLane _ hlt hlt, if_pos rfl]
    · rw [asmLane_putLane _ hlt hk, if_neg hne]
  · have value : transform 0xFFFFFFFF#32 (completedWord 0x44#8 0x332211#24) = 0x8695C2DC#32 := by decide +kernel
    rw [exec_lastByte _ hc, ← completedWord_eq_leWord, hacc, hasm, value]

end Sys2Proof.Machine
end

section
/-! PROOFS. The stream function (41_stream.md R57): it takes whole chunks one after another, it pads its last chunk with zeros
(R64), and a value fed back as a chunk cancels itself (R66). -/

namespace Sys2Proof.Machine

/-- Chunks are taken from the front, so what follows whole chunks starts from their value. -/
theorem streamFrom_append (acc : Word) {whole : List Byte} (hw : whole.length % 4 = 0) (rest : List Byte) :
    streamFrom acc (whole ++ rest) = streamFrom (streamFrom acc whole) rest := by
  induction acc, whole using streamFrom.induct with
  | case1 acc => rfl
  | case2 acc c0 | case3 acc c0 c1 | case4 acc c0 c1 c2 => simp at hw
  | case5 acc c0 c1 c2 c3 whole ih => exact ih ((Nat.add_mod_right _ 4).symm.trans hw)

theorem length_padded_mod (buf : List Byte) : (padded buf).length % 4 = 0 := by
  simp only [padded, chunkBytes, List.length_append, List.length_replicate]
  omega

theorem padded_eq_self {buf : List Byte} (h : buf.length % 4 = 0) : padded buf = buf := by
  simp [padded, chunkBytes, h]

theorem padded_chunk (c0 c1 c2 c3 : Byte) (rest : List Byte) :
    padded (c0 :: c1 :: c2 :: c3 :: rest) = c0 :: c1 :: c2 :: c3 :: padded rest := by
  have sameTail : (c0 :: c1 :: c2 :: c3 :: rest).length % 4 = rest.length % 4 := Nat.add_mod_right rest.length 4
  rw [padded, chunkBytes, sameTail]
  rfl

/-- The tail's word has the bytes of its padded chunk (R64). -/
theorem streamFrom_padded (acc : Word) (buf : List Byte) : streamFrom acc (padded buf) = streamFrom acc buf := by
  induction acc, buf using streamFrom.induct with
  | case1 acc | case2 acc c0 | case3 acc c0 c1 | case4 acc c0 c1 c2 => rfl
  | case5 acc c0 c1 c2 c3 rest ih => rwa [padded_chunk]

/-- Settles O48: what follows the tail there is its padding. -/
theorem tailEqualsItsPaddedChunk : Obligations.TailEqualsItsPaddedChunk := by
  refine ⟨fun buf h => ?_, ?_⟩
  · have padding : (chunkBytes - buf.length % chunkBytes) % chunkBytes = 4 - buf.length % 4 := by
      simp only [chunkBytes]
      omega
    have pads := streamFrom_padded seed buf
    rw [padded, padding] at pads
    exact pads.symm
  · decide +kernel

/-- A chunk that is the accumulator's own bytes makes it 0 (R51 item 2). -/
theorem streamFrom_leBytes_self (acc : Word) : streamFrom acc (leBytes acc) = 0x00000000#32 := by
  rw [leBytes, streamFrom, leWord_lanes, transform_self, streamFrom]

theorem stream_padded_append_leBytes (buf : List Byte) : stream (padded buf ++ leBytes (stream buf)) = 0x00000000#32 := by
  rw [stream, streamFrom_append _ (length_padded_mod buf), streamFrom_padded]
  exact streamFrom_leBytes_self (stream buf)

/-- Settles O50: the padded buffer ends at a chunk boundary with the value of the buffer. -/
theorem streamCancelsItself : Obligations.StreamCancelsItself := by
  refine ⟨stream_padded_append_leBytes, fun buf h => ?_, by decide +kernel⟩
  have cancels := stream_padded_append_leBytes buf
  rwa [padded_eq_self h] at cancels

end Sys2Proof.Machine
end

section
/-! PROOFS. Runs of commands (20_memory.md R32) as a chain of `Performs`: the form in which the statements about command
sequences are proved. -/

namespace Sys2Proof.Machine

/-- The commands are performed one after another, from the first state to the second. -/
inductive Runs : List Instr → State → State → Prop where
  | nil (s) : Runs [] s s
  | cons {i is s t u} : Performs s i t → Runs is t u → Runs (i :: is) s u

variable {i : Instr} {is js : List Instr} {s t u : State}

theorem foldInputs_of_runs (h : Runs is s t) : foldInputs (issued is) s = .next t := by
  induction h with
  | nil s => rfl
  | cons hi _ ih => rw [foldInputs_issued_cons, exec_of_performs hi, andThen, ih]

/-- A run is what issuing the commands does, from the state with no other input to come. -/
theorem issue_of_runs (h : Runs is (s.withInputs []) t) : issue is s = .next t := by
  rw [issue, runInputs_eq_foldInputs, foldInputs_of_runs h]

theorem Runs.single (h : Performs s i t) : Runs [i] s t := .cons h (.nil t)

theorem Runs.append (h : Runs is s t) (k : Runs js t u) : Runs (is ++ js) s u := by
  induction h with
  | nil s => exact k
  | cons hi _ ih => exact .cons hi (ih k)

/-- One response per command, and the last of them is the resulting `ACC` unless STAT asks for the status (R36, D11). -/
theorem responses_of_runs_concat (h : Runs is s t) (hi : Performs t i u) (hstat : i ≠ .stat) :
    ∃ vs : List Word, vs.length = is.length ∧ u.responses = s.responses ++ vs ++ [u.acc] := by
  obtain ⟨vs, hlen, hvs⟩ := responses_of_foldInputs_issued (foldInputs_of_runs h)
  exact ⟨vs, hlen, by rw [hi.responds_acc hstat, hvs]⟩

/-- The last response alone. -/
theorem getLast?_responses (hi : Performs t i u) (hstat : i ≠ .stat) : u.responses.getLast? = some u.acc := by
  rw [hi.responds_acc hstat, List.getLast?_concat]

end Sys2Proof.Machine
end

section
/-! PROOFS. What BYTE and FINISH make of the pending bytes (41_stream.md R59, R60; 10_state.md R15 to R17), the pending bytes
taken as a list. -/

namespace Sys2Proof.Machine

/-- These bytes are pending: `CNT` counts them, and `ASM` holds them little-endian with zeros above (R15 to R17). -/
structure Pending (tail : List Byte) (s : State) : Prop where
  cnt_eq : s.cnt.toNat = tail.length
  lane_eq : ∀ k < 3, asmLane s.asm k = tail.getD k 0#8

variable {tail : List Byte} {s t : State}

theorem pending_nil (hc : s.cnt = 0#2) (ha : s.asm = 0#24) : Pending [] s where
  cnt_eq := congrArg BitVec.toNat hc
  lane_eq k _ := by rw [ha, asmLane, BitVec.extractLsb'_zero, List.getD_nil]

/-- The pending bytes determine both registers of the assembler. -/
theorem Pending.registers_eq (hs : Pending tail s) (ht : Pending tail t) : s.asm = t.asm ∧ s.cnt = t.cnt :=
  ⟨asm_eq_of_lanes fun k hk => (hs.lane_eq k hk).trans (ht.lane_eq k hk).symm,
    BitVec.eq_of_toNat_eq (hs.cnt_eq.trans ht.cnt_eq.symm)⟩

theorem Pending.asm_eq_zero (h : Pending [] s) : s.asm = 0#24 :=
  (h.registers_eq (pending_nil (s := State.reset) rfl rfl)).1

theorem Pending.cnt_eq_zero (h : Pending [] s) : s.cnt = 0#2 :=
  (h.registers_eq (pending_nil (s := State.reset) rfl rfl)).2

theorem Pending.pushByte (h : Pending tail s) (hc : s.cnt ≠ 3#2) (b : Byte) : Pending (tail ++ [b]) (s.pushByte b) := by
  have hlt := cnt_toNat_lt_three hc
  obtain ⟨hcnt, hlane⟩ := h
  refine ⟨?_, fun k hk => ?_⟩
  · rw [State.pushByte_cnt, cnt_toNat_succ, List.length_append, List.length_singleton]
    omega
  · rw [State.pushByte_asm, asmLane_putLane _ hlt hk, hcnt, hlane k hk]
    rcases lt_trichotomy k tail.length with below | here | above
    · rw [if_neg below.ne, List.getD_append _ _ _ _ below]
    · simp [here]
    · rw [if_neg above.ne', List.getD_eq_default _ _ above.le, List.getD_eq_default]
      simpa using above

/-- The fourth byte's word is the whole chunk's. -/
theorem Pending.transform_completedWord {c0 c1 c2 : Byte} (h : Pending [c0, c1, c2] s) (b : Byte) :
    transform s.acc (completedWord b s.asm) = streamFrom s.acc [c0, c1, c2, b] := by
  rw [completedWord_eq_leWord, h.lane_eq 0 (by decide), h.lane_eq 1 (by decide), h.lane_eq 2 (by decide)]
  rfl

/-- FINISH takes the pending bytes as the stream function takes its last ones (R57, R60). -/
theorem Pending.applyTail_acc (h : Pending tail s) : s.applyTail.acc = streamFrom s.acc tail := by
  have hlt : tail.length < 4 := h.cnt_eq ▸ s.cnt.isLt
  rcases applyTail_cases s with ⟨hc, e⟩ | ⟨hc, e⟩
  · obtain rfl : tail = [] := List.eq_nil_of_length_eq_zero (by rw [← h.cnt_eq, hc]; rfl)
    rw [e, streamFrom]
  · rw [e, State.feed_acc, tailWord_eq_completedWord, completedWord_eq_leWord, h.lane_eq 0 (by decide),
      h.lane_eq 1 (by decide), h.lane_eq 2 (by decide)]
    match tail, hlt with
    | [], _ => exact absurd (BitVec.eq_of_toNat_eq h.cnt_eq) hc
    | [c0], _ | [c0, c1], _ | [c0, c1, c2], _ => rfl

end Sys2Proof.Machine
end

section
/-! PROOFS. The progress of a stream (41_stream.md R61): after any bytes, `ACC` is the value of the whole chunks among them, and
the bytes after those are pending. BYTE, WORD and FINISH each take this from one buffer to the next. -/

namespace Sys2Proof.Machine

/-- The bytes of a buffer that are in whole chunks. -/
def wholeChunks (buf : List Byte) : List Byte :=
  buf.take (4 * (buf.length / 4))

/-- The bytes of a buffer after its last whole chunk. -/
def tailBytes (buf : List Byte) : List Byte :=
  buf.drop (4 * (buf.length / 4))

/-- The state has taken the buffer in, starting at a chunk boundary with the accumulator `acc`. -/
structure Fed (acc : Word) (buf : List Byte) (s : State) : Prop where
  acc_eq : s.acc = streamFrom acc (wholeChunks buf)
  pending : Pending (tailBytes buf) s

variable {acc : Word} {buf whole tail : List Byte} {s t : State}

theorem wholeChunks_append (hw : whole.length % 4 = 0) (ht : tail.length < 4) : wholeChunks (whole ++ tail) = whole := by
  rw [wholeChunks, List.take_left' (by rw [List.length_append]; omega)]

theorem tailBytes_append (hw : whole.length % 4 = 0) (ht : tail.length < 4) : tailBytes (whole ++ tail) = tail := by
  rw [tailBytes, List.drop_left' (by rw [List.length_append]; omega)]

/-- A buffer is whole chunks and a tail in one way only. -/
theorem fed_append_iff (hw : whole.length % 4 = 0) (ht : tail.length < 4) :
    Fed acc (whole ++ tail) s ↔ s.acc = streamFrom acc whole ∧ Pending tail s := by
  constructor
  · rintro ⟨hacc, hpending⟩
    rw [wholeChunks_append hw ht] at hacc
    rw [tailBytes_append hw ht] at hpending
    exact ⟨hacc, hpending⟩
  · rintro ⟨hacc, hpending⟩
    refine ⟨?_, ?_⟩
    · rwa [wholeChunks_append hw ht]
    · rwa [tailBytes_append hw ht]

theorem length_tailBytes (buf : List Byte) : (tailBytes buf).length = buf.length % 4 := by
  rw [tailBytes, List.length_drop]
  omega

theorem exists_whole_tail (buf : List Byte) :
    ∃ whole tail, buf = whole ++ tail ∧ whole.length % 4 = 0 ∧ tail.length < 4 := by
  refine ⟨wholeChunks buf, tailBytes buf, (List.take_append_drop _ buf).symm, ?_, ?_⟩
  · rw [wholeChunks, List.length_take]
    omega
  · rw [length_tailBytes]
    omega

/-- At a chunk boundary. -/
theorem fed_iff_of_aligned (h : buf.length % 4 = 0) : Fed acc buf s ↔ s.acc = streamFrom acc buf ∧ Pending [] s := by
  rw [← fed_append_iff h (by decide), List.append_nil]

/-- In the first chunk. -/
theorem fed_iff_of_short (h : buf.length < 4) : Fed acc buf s ↔ s.acc = acc ∧ Pending buf s :=
  fed_append_iff (whole := []) rfl h

theorem fed_seed (s : State) : Fed seed [] (s.seedRegs.respond seed) :=
  (fed_iff_of_short (by decide)).2 ⟨rfl, pending_nil rfl rfl⟩

/-- BYTE (R59). -/
theorem Fed.byte (h : Fed acc buf s) (b : Byte) : ∃ t, Performs s (.byte b) t ∧ Fed acc (buf ++ [b]) t := by
  obtain ⟨whole, tail, rfl, hw, ht⟩ := exists_whole_tail buf
  obtain ⟨hacc, hpending⟩ := (fed_append_iff hw ht).1 h
  by_cases hc : s.cnt = 3#2
  · have hlen : tail.length = 3 := by rw [← hpending.cnt_eq, hc]; rfl
    obtain ⟨c0, c1, c2, rfl⟩ := List.length_eq_three.1 hlen
    refine ⟨_, .lastByte b hc, ?_⟩
    rw [List.append_assoc, fed_iff_of_aligned (by simpa using hw), streamFrom_append acc hw, ← hacc]
    exact ⟨hpending.transform_completedWord b, pending_nil rfl rfl⟩
  · have hlt : (tail ++ [b]).length < 4 := by
      have := cnt_toNat_lt_three hc
      rw [List.length_append, ← hpending.cnt_eq, List.length_singleton]
      omega
    have hnext := hpending.pushByte hc b
    refine ⟨_, .byte b hc, ?_⟩
    rw [List.append_assoc, fed_append_iff hw hlt]
    exact ⟨hacc, hnext.cnt_eq, hnext.lane_eq⟩

/-- BYTE for each byte of a buffer, in order (R93). -/
theorem Fed.feedBytes (h : Fed acc buf s) (bytes : List Byte) :
    ∃ t, Runs (feedBytes bytes) s t ∧ Fed acc (buf ++ bytes) t := by
  induction bytes generalizing buf s with
  | nil => exact ⟨s, .nil s, by rwa [List.append_nil]⟩
  | cons b bytes ih =>
    obtain ⟨t, hb, ht⟩ := h.byte b
    obtain ⟨u, hbytes, hu⟩ := ih ht
    exact ⟨u, .cons hb hbytes, by rwa [List.append_assoc] at hu⟩

/-- WORD of a chunk's word (R54, R63). -/
theorem Fed.word (h : Fed acc buf s) (hbuf : buf.length % 4 = 0) (c0 c1 c2 c3 : Byte) :
    ∃ t, Performs s (.word (leWord c0 c1 c2 c3)) t ∧ Fed acc (buf ++ [c0, c1, c2, c3]) t := by
  obtain ⟨hacc, hpending⟩ := (fed_iff_of_aligned hbuf).1 h
  refine ⟨_, .word _ hpending.cnt_eq_zero, ?_⟩
  rw [fed_iff_of_aligned (by simpa using hbuf), streamFrom_append acc hbuf, ← hacc]
  exact ⟨rfl, hpending.cnt_eq, hpending.lane_eq⟩

/-- FINISH (R60): the buffer is then padded to a chunk boundary, which leaves its value as it is (R64). -/
theorem Fed.finish (h : Fed acc buf s) :
    ∃ t, Performs s .finish t ∧ Fed acc (padded buf) t ∧ t.acc = streamFrom acc buf ∧ t.asm = 0#24 ∧ t.cnt = 0#2 := by
  obtain ⟨whole, tail, rfl, hw, ht⟩ := exists_whole_tail buf
  obtain ⟨hacc, hpending⟩ := (fed_append_iff hw ht).1 h
  have value : s.applyTail.acc = streamFrom acc (whole ++ tail) := by
    rw [hpending.applyTail_acc, hacc, streamFrom_append acc hw]
  refine ⟨_, performs_of_exec rfl, ?_, value, rfl, rfl⟩
  rw [fed_iff_of_aligned (length_padded_mod _), streamFrom_padded]
  exact ⟨value, pending_nil rfl rfl⟩

/-- A new stream and its bytes (R58, R59). -/
theorem runs_seed_feedBytes (s : State) (buf : List Byte) : ∃ t, Runs (.seed :: feedBytes buf) s t ∧ Fed seed buf t := by
  obtain ⟨t, hbytes, ht⟩ := (fed_seed s).feedBytes buf
  exact ⟨t, .cons .seed hbytes, ht⟩

/-- Settles O45: `Fed` is the statement, with its pending bytes counted and lane by lane. -/
theorem streamProgress : Obligations.StreamProgress := by
  intro s buf
  obtain ⟨t, hruns, hacc, hpending⟩ := runs_seed_feedBytes (s.withInputs []) buf
  refine ⟨t, issue_of_runs hruns, ?_, hacc, hpending.lane_eq⟩
  rw [hpending.cnt_eq, length_tailBytes]

/-- Settles O44: the bytes after SEED, and then FINISH. -/
theorem streamCommandsComputeTheStream : Obligations.StreamCommandsComputeTheStream := by
  intro s buf
  obtain ⟨t, hruns, ht⟩ := runs_seed_feedBytes (s.withInputs []) buf
  obtain ⟨u, hfinish, -, hacc, hasm, hcnt⟩ := ht.finish
  obtain ⟨vs, hlen, hvs⟩ := responses_of_runs_concat hruns hfinish (by decide)
  refine ⟨u, vs, issue_of_runs (hruns.append (.single hfinish)), hacc, hasm, hcnt, ?_, ?_⟩
  · rw [hvs, hacc]
    rfl
  · simpa [feedBytes] using hlen

/-- Settles O51: the second buffer goes on from the first one, padded. -/
theorem finishMidStreamPads : Obligations.FinishMidStreamPads := by
  intro s b1 b2
  obtain ⟨t1, hb1, ht1⟩ := runs_seed_feedBytes (s.withInputs []) b1
  obtain ⟨t2, hfinish1, ht2, -⟩ := ht1.finish
  obtain ⟨t3, hb2, ht3⟩ := ht2.feedBytes b2
  obtain ⟨t4, hfinish2, -, hacc, hasm, hcnt⟩ := ht3.finish
  have hruns := hb1.append (.cons hfinish1 (hb2.append (.single hfinish2)))
  have last := getLast?_responses hfinish2 (by decide)
  rw [hacc] at last
  exact ⟨t4, issue_of_runs hruns, hacc, last, hasm, hcnt⟩

theorem issue_streamCommands (s : State) (buf : List Byte) :
    ∃ t, issue (streamCommands buf) s = .next t ∧ t.responses.getLast? = some (stream buf) ∧ t.acc = stream buf := by
  obtain ⟨t, vs, hissue, hacc, -, -, hresponses, -⟩ := streamCommandsComputeTheStream s buf
  exact ⟨t, hissue, by rw [hresponses, List.getLast?_concat], hacc⟩

/-- A call with a value has its commands, which are those of a buffer with that value (R62). -/
theorem streamCallCommands_of_streamCall {buf : Option (List Byte)} {n : Nat} {v : Word} (h : streamCall buf n = some v) :
    ∃ bytes, streamCallCommands buf n = some (streamCommands bytes) ∧ stream bytes = v := by
  cases buf with
  | none =>
    cases h
    exact ⟨[], rfl, rfl⟩
  | some b =>
    obtain ⟨hn, rfl⟩ : n ≤ b.length ∧ stream (b.take n) = v := by simpa [streamCall] using h
    exact ⟨b.take n, if_pos hn, rfl⟩

/-- Settles O46: every call is the stream of some bytes, an absent buffer that of none. -/
theorem streamCallIsTheCommandSequence : Obligations.StreamCallIsTheCommandSequence := by
  refine ⟨fun s buf n v h => ?_, fun n => ⟨rfl, rfl⟩, ⟨rfl, rfl⟩, fun buf n hn => ⟨if_pos hn, if_pos hn, ?_⟩⟩
  · obtain ⟨bytes, hcommands, rfl⟩ := streamCallCommands_of_streamCall h
    obtain ⟨t, hissue, hlast, hacc⟩ := issue_streamCommands s bytes
    exact ⟨_, t, hcommands, hissue, hlast, hacc⟩
  · rw [List.length_map, List.length_take, Nat.min_eq_left hn]

/-! ### Whole chunks with WORD (R63) -/

/-- A chunk, by whichever of its two ways. -/
theorem Fed.chunk (h : Fed acc buf s) (hbuf : buf.length % 4 = 0) (asWord : Bool) (c0 c1 c2 c3 : Byte) : ∃ t,
    Runs (if asWord then [.word (leWord c0 c1 c2 c3)] else [.byte c0, .byte c1, .byte c2, .byte c3]) s t ∧
      Fed acc (buf ++ [c0, c1, c2, c3]) t := by
  cases asWord with
  | true =>
    obtain ⟨t, hword, ht⟩ := h.word hbuf c0 c1 c2 c3
    exact ⟨t, .single hword, ht⟩
  | false => exact h.feedBytes [c0, c1, c2, c3]

variable {α : Type} {bytes : α → List Byte} {commands : α → List Instr}

/-- Chunks that are each fed by commands of their own, one after another. -/
theorem Fed.flatMap (chunk : ∀ c, (bytes c).length = 4)
    (feed : ∀ (c : α) {buf s}, Fed acc buf s → buf.length % 4 = 0 →
      ∃ t, Runs (commands c) s t ∧ Fed acc (buf ++ bytes c) t)
    (h : Fed acc buf s) (hbuf : buf.length % 4 = 0) (chunks : List α) :
    ∃ t, Runs (chunks.flatMap commands) s t ∧ Fed acc (buf ++ chunks.flatMap bytes) t := by
  induction chunks generalizing buf s with
  | nil => exact ⟨s, .nil s, by rwa [List.flatMap_nil, List.append_nil]⟩
  | cons c chunks ih =>
    obtain ⟨t, hc, ht⟩ := feed c h hbuf
    obtain ⟨u, hchunks, hu⟩ := ih ht (by rw [List.length_append, chunk c, Nat.add_mod_right, hbuf])
    exact ⟨u, hc.append hchunks, by rwa [List.append_assoc] at hu⟩

/-- The two ways to feed a chunk from a chunk boundary leave the same registers (R63). -/
theorem wordle_regs_eq_feedBytes (hc : s.cnt = 0#2) (ha : s.asm = 0#24) (c0 c1 c2 c3 : Byte) : ∃ t u v,
    Performs s (.word (leWord c0 c1 c2 c3)) t ∧ Runs (feedBytes [c0, c1, c2]) s u ∧ Performs u (.byte c3) v ∧
      t.regs = v.regs := by
  have start : Fed s.acc [] s := (fed_iff_of_short (by decide)).2 ⟨rfl, pending_nil hc ha⟩
  obtain ⟨t, hword, ht⟩ := start.word rfl c0 c1 c2 c3
  obtain ⟨u, hbytes, hu⟩ := start.feedBytes [c0, c1, c2]
  obtain ⟨v, hbyte, hv⟩ := hu.byte c3
  obtain ⟨htacc, htpending⟩ := (fed_iff_of_aligned (by simp)).1 ht
  obtain ⟨hvacc, hvpending⟩ := (fed_iff_of_aligned (by simp)).1 hv
  refine ⟨t, u, v, hword, hbytes, hbyte, (State.regs_eq_iff ..).2 ⟨htacc.trans hvacc.symm, ?_⟩⟩
  exact htpending.registers_eq hvpending

/-- Settles O47: either way to feed a chunk takes the stream from one chunk boundary to the next. -/
theorem wordEqualsItsFourBytes : Obligations.WordEqualsItsFourBytes := by
  refine ⟨fun s c0 c1 c2 c3 hc hlanes => ?_, fun s chunks tail buf hbuf => ?_⟩
  · obtain ⟨t, u, v, hword, hbytes, hbyte, hregs⟩ := wordle_regs_eq_feedBytes (s := s.withInputs []) hc
      (asm_eq_zero_of_lanesClear hlanes hc) c0 c1 c2 c3
    have hacc : t.acc = v.acc := congrArg Regs.acc hregs
    refine ⟨t, v, issue_of_runs (.single hword), issue_of_runs (hbytes.append (.single hbyte)), hregs, ?_,
      hword.responds_acc Instr.noConfusion⟩
    rw [getLast?_responses hword Instr.noConfusion, getLast?_responses hbyte Instr.noConfusion, hacc]
  · obtain ⟨t, hchunks, ht⟩ := (fed_seed (s.withInputs [])).flatMap (acc := seed)
      (bytes := fun (_, c0, c1, c2, c3) => [c0, c1, c2, c3]) (commands := fun (asWord, c0, c1, c2, c3) =>
        if asWord then [.word (leWord c0 c1 c2 c3)] else [.byte c0, .byte c1, .byte c2, .byte c3])
      (fun _ => rfl) (fun (asWord, c0, c1, c2, c3) _ _ h haligned => h.chunk haligned asWord c0 c1 c2 c3) rfl chunks
    obtain ⟨u, htail, hu⟩ := ht.feedBytes tail
    obtain ⟨v, hfinish, -, hacc, hasm, hcnt⟩ := hu.finish
    rw [List.nil_append, ← hbuf] at hacc
    have hlast := getLast?_responses hfinish (by decide)
    rw [hacc] at hlast
    have hruns := Runs.cons .seed ((hchunks.append htail).append (.single hfinish))
    exact ⟨v, issue_of_runs hruns, hacc, hasm, hcnt, hlast⟩

end Sys2Proof.Machine
end

section
/-! PROOFS. FINISH (41_stream.md R60): its two cases, and the second one of two. -/

namespace Sys2Proof.Machine

variable {s t u : State}

theorem exec_finish_pending (hc : s.cnt ≠ 0#2) :
    exec .finish s = .next { s with
      acc := transform s.acc (0#8 ++ s.asm), asm := 0#24, cnt := 0#2,
      responses := s.responses ++ [transform s.acc (0#8 ++ s.asm)] } := by
  rw [exec_of_performs (.finishTail hc), tailWord_eq_completedWord]
  rfl

theorem Performs.finish_twice (ht : Performs s .finish t) (hu : Performs t .finish u) :
    u.regs = t.regs ∧ u.responses = t.responses ++ [t.acc] := by
  have hasm : t.asm = 0#24 := ht.asm_cleared (.inr (.inl rfl))
  have hcnt : t.cnt = 0#2 := ht.cnt_of_seed_or_finish (.inr rfl)
  cases hu with
  | finish => exact ⟨(State.regs_eq_iff ..).2 ⟨rfl, hasm.symm, hcnt.symm⟩, rfl⟩
  | finishTail hc => exact absurd hcnt hc

/-- Settles O36: the two cases of `Performs`, and the examples as values of the stream and the transform. -/
theorem finishResult : Obligations.FinishResult := by
  refine ⟨rfl, fun s hc => exec_finish_pending hc, fun s hc => exec_of_performs (.finish hc),
    fun s t u ht hu => (performs_of_exec ht).finish_twice (performs_of_exec hu), ?_, fun s hacc hasm hc => ?_⟩
  · obtain ⟨t, hissue, -, hacc⟩ := issue_streamCommands State.reset [0x00#8]
    exact ⟨t, hissue, hacc.trans (by decide +kernel)⟩
  · have pending : s.cnt ≠ 0#2 := by rw [hc]; decide
    have value : transform 0x8695C2DC#32 (0#8 ++ 0x006655#24) = 0x3DA1135C#32 := by decide +kernel
    rw [exec_finish_pending pending, hacc, hasm, value]

end Sys2Proof.Machine
end

section
/-! PROOFS. How many word transforms a stream performs (41_stream.md R65): BYTE counts one where the count of pending bytes
wraps, FINISH one where bytes are pending. -/

namespace Sys2Proof.Machine

variable {i : Instr} {is js : List Instr} {s t : State}

theorem transformsOver_cons (h : Performs s i t) (is : List Instr) :
    transformsOver (i :: is) s = transformsOf i s + transformsOver is t := by
  rw [transformsOver, exec_of_performs h]

theorem transformsOver_append (h : Runs is s t) (js : List Instr) :
    transformsOver (is ++ js) s = transformsOver is s + transformsOver js t := by
  induction h with
  | nil s => exact (Nat.zero_add _).symm
  | cons hi _ ih => rw [List.cons_append, transformsOver_cons hi, transformsOver_cons hi, ih, Nat.add_assoc]

theorem transformsOf_byte (b : Byte) (s : State) : transformsOf (.byte b) s = (s.cnt.toNat + 1) / 4 := by
  have onAll : ∀ c : BitVec 2, (if c = 3#2 then 1 else 0) = (c.toNat + 1) / 4 := by decide
  exact onAll s.cnt

theorem transformsOf_finish (s : State) : transformsOf .finish s = (s.cnt.toNat + 3) / 4 := by
  have onAll : ∀ c : BitVec 2, (if c = 0#2 then 0 else 1) = (c.toNat + 3) / 4 := by decide
  exact onAll s.cnt

/-- The pending bytes and the new ones, in chunks. -/
theorem transformsOver_feedBytes (bytes : List Byte) (s : State) :
    transformsOver (feedBytes bytes) s = (s.cnt.toNat + bytes.length) / 4 := by
  induction bytes generalizing s with
  | nil => exact (Nat.div_eq_of_lt s.cnt.isLt).symm
  | cons b bytes ih =>
    obtain ⟨t, hexec, -⟩ := (exec_cases (.byte b) s).resolve_right (by simp)
    have hb := performs_of_exec hexec
    have hcnt : t.cnt.toNat = (s.cnt.toNat + 1) % 4 := by rw [hb.cnt_of_byte, cnt_toNat_succ]
    have hcons : transformsOver (feedBytes (b :: bytes)) s =
        transformsOf (.byte b) s + transformsOver (feedBytes bytes) t := transformsOver_cons hb _
    rw [hcons, ih, hcnt, transformsOf_byte, List.length_cons]
    omega

theorem transformsOver_seed_feedBytes (s : State) (buf : List Byte) :
    transformsOver (.seed :: feedBytes buf) s = buf.length / 4 := by
  rw [transformsOver_cons .seed, transformsOver_feedBytes]
  simp [transformsOf]

theorem transformsOver_streamCommands (s : State) (buf : List Byte) :
    transformsOver (streamCommands buf) s = (buf.length + 3) / 4 := by
  obtain ⟨t, hruns, -, hpending⟩ := runs_seed_feedBytes s buf
  obtain ⟨u, hfinish⟩ : ∃ u, Performs t .finish u := ⟨_, performs_of_exec rfl⟩
  have hcnt : t.cnt.toNat = buf.length % 4 := hpending.cnt_eq.trans (length_tailBytes buf)
  rw [streamCommands, ← List.cons_append, transformsOver_append hruns, transformsOver_seed_feedBytes,
    transformsOver_cons hfinish, transformsOf_finish, hcnt, transformsOver]
  omega

/-- ACC after a command that counts no transform (R14, R65). -/
theorem Performs.acc_of_no_transform (h : Performs s i t) (hi : transformsOf i s = 0) :
    (i = .seed ∧ t.acc = 0xFFFFFFFF#32) ∨ (∃ v, i = .load v ∧ t.acc = v) ∨
      (i.mnemonic ∈ [.read, .byte, .finish, .stat] ∧ t.acc = s.acc) := by
  cases h with
  | seed => exact .inl ⟨rfl, rfl⟩
  | load v => exact .inr (.inl ⟨v, rfl, rfl⟩)
  | read | byte | finish | stat => exact .inr (.inr ⟨by simp [Instr.mnemonic], rfl⟩)
  | word => cases hi
  | lastByte b hc => simp [transformsOf, hc] at hi
  | finishTail hc => simp [transformsOf, hc] at hi

theorem Performs.acc_of_transform (h : Performs s i t) (hi : transformsOf i s ≠ 0) :
    transformsOf i s = 1 ∧
    ((∃ v, i = .word v ∧ t.acc = transform s.acc v) ∨
     (∃ b, i = .byte b ∧ s.cnt = 3#2 ∧
        t.acc = transform s.acc (leWord (asmLane s.asm 0) (asmLane s.asm 1) (asmLane s.asm 2) b)) ∨
     (i = .finish ∧ s.cnt ≠ 0#2 ∧ t.acc = transform s.acc (0#8 ++ s.asm))) := by
  cases h with
  | word v => exact ⟨rfl, .inl ⟨v, rfl, rfl⟩⟩
  | lastByte b hc =>
    have hword := congrArg (transform s.acc) (completedWord_eq_leWord b s.asm)
    exact ⟨if_pos hc, .inr (.inl ⟨b, rfl, hc, hword⟩)⟩
  | finishTail hc =>
    have hword := congrArg (transform s.acc) (tailWord_eq_completedWord s.asm)
    exact ⟨if_neg hc, .inr (.inr ⟨rfl, hc, hword⟩)⟩
  | read | seed | load | stat => exact absurd rfl hi
  | byte b hc => exact absurd (if_neg hc) hi
  | finish hc => exact absurd (if_pos hc) hi

/-- Settles O49: the counts of a stream, and what each performed command does by what it counts. -/
theorem streamTransformCount : Obligations.StreamTransformCount := by
  refine ⟨fun s buf => ⟨transformsOver_streamCommands s buf, transformsOver_seed_feedBytes s buf⟩,
    fun i s t h => (performs_of_exec h).acc_of_no_transform, fun i s t h => (performs_of_exec h).acc_of_transform, ?_⟩
  have first : leWord 1#8 2#8 3#8 4#8 = 0x04030201#32 := by decide
  have second : leWord 5#8 6#8 7#8 8#8 = 0x08070605#32 := by decide
  rw [stream, streamFrom, streamFrom, streamFrom, first, second, seed]

end Sys2Proof.Machine
end

section
/-! PROOFS. A context saved with READ and STAT is brought back (41_stream.md R69): the status word gives the pending bytes, which
BYTE puts back one by one. -/

namespace Sys2Proof.Machine

variable {s t : State}

theorem statusWord_lane (cnt : BitVec 2) (asm : BitVec 24) {k : Nat} (hk : k < 3) :
    (statusWord cnt asm).extractLsb' (8 * k) 8 = asmLane asm k :=
  BitVec.extractLsb'_append_eq_of_add_le (by omega)

/-- The pending bytes of a state, first byte first (R15, R16). -/
def pendingBytes (s : State) : List Byte :=
  (List.range s.cnt.toNat).map (asmLane s.asm)

theorem pending_pendingBytes (hs : s.LanesClear) : Pending (pendingBytes s) s where
  cnt_eq := by rw [pendingBytes, List.length_map, List.length_range]
  lane_eq k hk := by
    by_cases h : k < s.cnt.toNat
    · simp [pendingBytes, h]
    · have hle : s.cnt.toNat ≤ k := Nat.le_of_not_lt h
      rw [(lanesClear_iff s).1 hs k hk hle, List.getD_eq_default]
      rwa [pendingBytes, List.length_map, List.length_range]

/-- The BYTEs that the status word calls for are those of the pending bytes. -/
theorem restoreContext_eq (s : State) :
    restoreContext s.acc (statusWord s.cnt s.asm) = .seed :: .load s.acc :: feedBytes (pendingBytes s) := by
  have lane0 : (statusWord s.cnt s.asm).extractLsb' 0 8 = asmLane s.asm 0 := statusWord_lane (k := 0) _ _ (by decide)
  have lane1 : (statusWord s.cnt s.asm).extractLsb' 8 8 = asmLane s.asm 1 := statusWord_lane (k := 1) _ _ (by decide)
  have lane2 : (statusWord s.cnt s.asm).extractLsb' 16 8 = asmLane s.asm 2 := statusWord_lane (k := 2) _ _ (by decide)
  have count : ∀ c : BitVec 2, c.toNat = 0 ∨ c.toNat = 1 ∨ c.toNat = 2 ∨ c.toNat = 3 := by decide
  rw [restoreContext, statusWord_cnt, lane0, lane1, lane2, pendingBytes]
  rcases count s.cnt with h | h | h | h <;> rw [h] <;> rfl

theorem runs_saveContext (s : State) :
    ∃ t, Runs saveContext s t ∧ t.regs = s.regs ∧ t.responses = s.responses ++ [s.acc, statusWord s.cnt s.asm] :=
  ⟨_, .cons .read (.single .stat), rfl, List.append_assoc ..⟩

/-- From any state `u`: SEED makes LOAD legal, and the pending bytes are too few to complete a chunk. -/
theorem runs_restoreContext (hs : s.LanesClear) (u : State) :
    ∃ v, Runs (restoreContext s.acc (statusWord s.cnt s.asm)) u v ∧ v.regs = s.regs := by
  have hpending := pending_pendingBytes hs
  have hshort : (pendingBytes s).length < 4 := hpending.cnt_eq ▸ s.cnt.isLt
  obtain ⟨w, hload, loaded⟩ : ∃ w, Performs (u.seedRegs.respond seed) (.load s.acc) w ∧ Fed s.acc [] w :=
    ⟨_, .load s.acc rfl, (fed_iff_of_short (by decide)).2 ⟨rfl, pending_nil rfl rfl⟩⟩
  obtain ⟨v, hbytes, hv⟩ := loaded.feedBytes (pendingBytes s)
  obtain ⟨hacc, hvpending⟩ := (fed_iff_of_short hshort).1 hv
  rw [restoreContext_eq]
  exact ⟨v, .cons .seed (.cons hload hbytes), (State.regs_eq_iff ..).2 ⟨hacc, hvpending.registers_eq hpending⟩⟩

/-- Settles O52: the two responses of a save are what the restoring commands are made of. -/
theorem contextIsSavedAndRestored : Obligations.ContextIsSavedAndRestored := by
  intro s u hs
  obtain ⟨t, hsave, hregs, hresponses⟩ := runs_saveContext (s.withInputs [])
  obtain ⟨v, hrestore, hv⟩ := runs_restoreContext hs (u.withInputs [])
  exact ⟨t, _, _, v, issue_of_runs hsave, hresponses, hregs, issue_of_runs hrestore, hv⟩

end Sys2Proof.Machine
end

section
/-! PROOFS. A command's effect, response and refusal depend on the registers only (41_stream.md R68). -/

namespace Sys2Proof.Machine

variable {i : Instr} {s s' t : State}

theorem Performs.of_regs_eq (h : Performs s i s') (hregs : s.regs = t.regs) : ∃ t' v, Performs t i t' ∧
    s'.regs = t'.regs ∧ s'.responses = s.responses ++ [v] ∧ t'.responses = t.responses ++ [v] := by
  obtain ⟨acc, asm, cnt, inputs, responses, powerLosses⟩ := s
  obtain ⟨acc', asm', cnt', inputs', responses', powerLosses'⟩ := t
  cases hregs
  cases h with
  | read => exact ⟨_, _, .read, rfl, rfl, rfl⟩
  | seed => exact ⟨_, _, .seed, rfl, rfl, rfl⟩
  | load v hc => exact ⟨_, _, .load v hc, rfl, rfl, rfl⟩
  | word v hc => exact ⟨_, _, .word v hc, rfl, rfl, rfl⟩
  | byte b hc => exact ⟨_, _, .byte b hc, rfl, rfl, rfl⟩
  | lastByte b hc => exact ⟨_, _, .lastByte b hc, rfl, rfl, rfl⟩
  | finish hc => exact ⟨_, _, .finish hc, rfl, rfl, rfl⟩
  | finishTail hc => exact ⟨_, _, .finishTail hc, rfl, rfl, rfl⟩
  | stat => exact ⟨_, _, .stat, rfl, rfl, rfl⟩

/-- Settles O25: a performed command by `Performs.of_regs_eq`, and a refused one because RF3 records the word and `CNT`. -/
theorem commandDependsOnRegistersOnly : Obligations.CommandDependsOnRegistersOnly := by
  intro i s t hregs
  rcases exec_cases i s with ⟨s', hs, -⟩ | ⟨hi, hc, hs⟩
  · obtain ⟨t', v, ht, same⟩ := (performs_of_exec hs).of_regs_eq hregs
    exact .inl ⟨s', t', v, hs, exec_of_performs ht, same⟩
  · have hcnt : s.cnt = t.cnt := congrArg Regs.cnt hregs
    have hword : i.mnemonic ∈ [.load, .word] := by
      rcases hi with ⟨v, rfl⟩ | ⟨v, rfl⟩ <;> simp [Instr.mnemonic]
    rw [hcnt] at hc hs
    exact .inr ⟨_, hs, exec_refused_of_pending hword hc⟩

end Sys2Proof.Machine
end

section
/-! PROOFS. The readback commands (42_readback.md R70, R71): each answers with a view of the registers and leaves them, so that
asked again it answers the same. -/

namespace Sys2Proof.Machine

variable {i : Instr} {s t u : State}

/-- Two responses, one after the other. -/
theorem State.respond_respond (s : State) (v w : Word) :
    (s.respond v).respond w = { s with responses := s.responses ++ [v, w] } := by
  rw [State.respond, State.respond, List.append_assoc, List.singleton_append]

/-! ### READ (R70) -/

/-- The commands of a stream (R61), as a chain that other commands may follow. -/
theorem runs_streamCommands (s : State) (buf : List Byte) : ∃ t, Runs (streamCommands buf) s t ∧ t.acc = stream buf := by
  obtain ⟨t, hbytes, ht⟩ := runs_seed_feedBytes s buf
  obtain ⟨u, hfinish, -, hacc, -⟩ := ht.finish
  exact ⟨u, hbytes.append (.single hfinish), hacc⟩

theorem issue_streamCommands_read (s : State) (buf : List Byte) :
    ∃ t, issue (streamCommands buf ++ [.read]) s = .next t ∧ t.responses.getLast? = some (stream buf) := by
  obtain ⟨t, hstream, hacc⟩ := runs_streamCommands (s.withInputs []) buf
  have hread : Performs t .read (t.respond t.acc) := .read
  refine ⟨_, issue_of_runs (hstream.append (.single hread)), ?_⟩
  rw [getLast?_responses hread Instr.noConfusion, State.respond_acc, hacc]

/-- Settles O30: the second READ sees the accumulator of the first, and the example is the value of its stream. -/
theorem readResult : Obligations.ReadResult := by
  refine ⟨rfl, fun s => rfl, fun s => ⟨_, _, rfl, rfl, s.respond_respond s.acc s.acc⟩, fun s => ?_⟩
  have value : stream [0x11#8, 0x22#8, 0x33#8, 0x44#8, 0x55#8, 0x66#8] = 0x3DA1135C#32 := by decide +kernel
  rw [← value]
  exact issue_streamCommands_read s _

/-! ### STAT (R71) -/

theorem statusWord_reserved (cnt : BitVec 2) (asm : BitVec 24) : (statusWord cnt asm).extractLsb' 26 6 = 0#6 := by
  rw [statusWord, BitVec.extractLsb'_append_eq_of_le (by decide)]
  exact BitVec.extractLsb'_append_eq_left

theorem statusWord_zero : statusWord 0#2 0#24 = 0x00000000#32 := by decide

theorem Performs.stat_twice (ht : Performs s .stat t) (hu : Performs t .stat u) :
    u.regs = s.regs ∧ ∃ v, u.responses = s.responses ++ [v, v] := by
  cases ht
  cases hu
  exact ⟨rfl, _, congrArg State.responses (s.respond_respond _ _)⟩

theorem Performs.cnt_cleared (h : Performs s i t)
    (hi : i = .seed ∨ i = .finish ∨ (i.mnemonic = .byte ∧ s.cnt = 3#2)) : t.cnt = 0#2 := by
  rcases hi with hi | hi | ⟨hbyte, hc⟩
  · exact h.cnt_of_seed_or_finish (.inl hi)
  · exact h.cnt_of_seed_or_finish (.inr hi)
  · match i, hbyte with
    | .byte b, _ =>
      rw [h.cnt_of_byte, hc]
      rfl

/-- With no byte pending and `ASM` 0. -/
theorem Performs.responds_zero (h : Performs s .stat t) (hasm : s.asm = 0#24) (hcnt : s.cnt = 0#2) :
    t.responses = s.responses ++ [0x00000000#32] := by
  rw [h.responds_status, hasm, hcnt, statusWord_zero]

/-- The example's pending bytes, little-endian below their count. -/
theorem Pending.statusWord_eq (h : Pending [0x11#8, 0x22#8, 0x33#8] s) : statusWord s.cnt s.asm = 0x03332211#32 := by
  obtain ⟨hasm, hcnt⟩ : s.asm = 0x332211#24 ∧ s.cnt = 3#2 :=
    h.registers_eq (t := { State.reset with asm := 0x332211#24, cnt := 3#2 }) ⟨rfl, by decide⟩
  rw [hasm, hcnt]
  decide

theorem issue_seed_feedBytes_stat (s : State) {buf : List Byte} (hbuf : buf.length < 4) :
    ∃ t u, Pending buf t ∧ issue (.seed :: (feedBytes buf ++ [.stat])) s = .next u ∧
      u.responses.getLast? = some (statusWord t.cnt t.asm) := by
  obtain ⟨t, hbytes, ht⟩ := runs_seed_feedBytes (s.withInputs []) buf
  obtain ⟨-, hpending⟩ := (fed_iff_of_short hbuf).1 ht
  have hstat : Performs t .stat (t.respond (statusWord t.cnt t.asm)) := .stat
  refine ⟨t, _, hpending, issue_of_runs (hbytes.append (.single hstat)), ?_⟩
  rw [hstat.responds_status, List.getLast?_concat]

/-- Settles O31: the fields of the status word, the commands that leave `ASM` and `CNT` at 0, and the example as three pending
bytes. -/
theorem statResult : Obligations.StatResult := by
  refine ⟨rfl, fun s => ⟨statusWord s.cnt s.asm, rfl, statusWord_reserved _ _, statusWord_cnt _ _, statusWord_asm _ _⟩,
    fun s t u ht hu => (performs_of_exec ht).stat_twice (performs_of_exec hu), fun i s t u hi ht hu => ?_,
    ⟨_, rfl, Performs.stat.responds_zero rfl rfl⟩, fun s => ?_⟩
  · have cleared := performs_of_exec ht
    exact (performs_of_exec hu).responds_zero (cleared.asm_cleared hi) (cleared.cnt_cleared hi)
  · obtain ⟨t, u, hpending, hissue, hlast⟩ :=
      issue_seed_feedBytes_stat s (buf := [0x11#8, 0x22#8, 0x33#8]) (by decide)
    exact ⟨u, hissue, by rw [hlast, hpending.statusWord_eq]⟩

end Sys2Proof.Machine
end

section
/-! PROOFS. The refusals of the command port (60_exceptions.md R76, R77): what the decoder says of a word decides which of RF1,
RF2 and RF3 can apply, and each of these three findings is a condition on the op and the data. -/

namespace Sys2Proof

variable {w : Command}

/-- The words that RF1 speaks of. -/
theorem decode_eq_reservedOp_iff : decode w = .error .reservedOp ↔ 7 ≤ (w >>> 32).toNat := by
  refine ⟨fun h => ?_, decode_reservedOp⟩
  have onAll : ∀ op : BitVec 4, mnemonicOfOp op = none → 7 ≤ op.toNat := by decide
  rw [Command.shiftRight_toNat]
  apply onAll
  unfold decode at h
  split at h
  · assumption
  · split at h <;> cases h

/-- A known op with a data bit set that its format does not use. -/
theorem exists_unusedBits_of_decode (h : decode w = .error .nonzeroReservedData) :
    ∃ m : Mnemonic, w.op = m.opcode ∧ w.data &&& m.format.unusedBits ≠ 0#32 := by
  unfold decode at h
  split at h
  · cases h
  · next m hm =>
    split at h
    · next hd => exact ⟨m, opcode_of_mnemonicOfOp hm, (instrOfData_eq_none_iff m _).1 hd⟩
    · cases h

/-- The words that RF2 speaks of. -/
theorem decode_eq_nonzeroReservedData_iff : decode w = .error .nonzeroReservedData ↔
    ((w >>> 32).toNat ∈ [0, 1, 5, 6] ∧ w.setWidth 32 ≠ 0#32) ∨
      ((w >>> 32).toNat = 4 ∧ w.setWidth 32 >>> 8 ≠ 0#32) := by
  constructor
  · intro h
    obtain ⟨m, hop, hd⟩ := exists_unusedBits_of_decode h
    rw [Command.shiftRight_toNat, hop, Command.setWidth_data]
    cases m with
    | read | seed | finish | stat =>
      refine .inl ⟨by decide, fun hzero => hd ?_⟩
      rw [hzero, BitVec.zero_and]
    | load | word => exact absurd BitVec.and_zero hd
    | byte => exact .inr ⟨rfl, mt (and_high_mask_eq_zero_iff _).2 hd⟩
  · rintro (⟨hop, hd⟩ | ⟨hop, hd⟩)
    · exact decode_nonzero_data_of_formatN hop hd
    · exact decode_nonzeroReservedData (m := .byte) hop (mt (and_high_mask_eq_zero_iff _).1 hd)

/-- The words that RF3 speaks of: LOAD and WORD take any data (R38). -/
theorem exists_decode_wordCommand_iff :
    (∃ i, decode w = .ok i ∧ i.mnemonic ∈ [.load, .word]) ↔ (w >>> 32).toNat ∈ [2, 3] := by
  constructor
  · rintro ⟨i, h, hi⟩
    obtain ⟨hop, -⟩ := decode_eq_ok_iff.1 h
    have ops : ∀ m ∈ [Mnemonic.load, .word], m.opcode.toNat ∈ [2, 3] := by decide
    rw [Command.shiftRight_toNat, hop]
    exact ops _ hi
  · intro h
    rcases List.mem_pair.1 h with hop | hop
    · exact ⟨.load _, decode_of_fields hop rfl, .head _⟩
    · exact ⟨.word _, decode_of_fields hop rfl, .tail _ (.head _)⟩

namespace Machine

/-- A command refuses by RF3 only: it is LOAD or WORD, and bytes are pending (R53, R54). -/
theorem refusal_of_exec {i : Instr} {s : State} {r : Refusal} (h : exec i s = .refused r) :
    i.mnemonic ∈ [.load, .word] ∧ s.cnt ≠ 0#2 ∧ r = .partialWord (encode i) s.cnt := by
  rcases exec_cases i s with ⟨t, ht, -⟩ | ⟨hi, hc, hr⟩
  · simp [ht] at h
  · rw [hr] at h
    cases h
    rcases hi with ⟨v, rfl⟩ | ⟨v, rfl⟩
    · exact ⟨.head _, hc, rfl⟩
    · exact ⟨.tail _ (.head _), hc, rfl⟩

/-- The refusals of the port by what the decoder says of the word. -/
theorem perform_eq_refused_iff (w : Command) (s : State) (r : Refusal) : perform w s = .refused r ↔
    (decode w = .error .reservedOp ∧ r = .reservedOp w) ∨
    (decode w = .error .nonzeroReservedData ∧ r = .nonzeroReservedData w) ∨
    ((∃ i, decode w = .ok i ∧ i.mnemonic ∈ [.load, .word]) ∧ s.cnt ≠ 0#2 ∧ r = .partialWord w s.cnt) := by
  constructor
  · intro h
    cases hw : decode w with
    | ok i =>
      rw [perform_ok hw] at h
      obtain ⟨hi, hc, hr⟩ := refusal_of_exec h
      rw [encode_of_decode hw] at hr
      exact .inr (.inr ⟨⟨i, rfl, hi⟩, hc, hr⟩)
    | error e =>
      cases e with
      | reservedOp =>
        rw [perform_reservedOp hw] at h
        cases h
        exact .inl ⟨rfl, rfl⟩
      | nonzeroReservedData =>
        rw [perform_nonzeroReservedData hw] at h
        cases h
        exact .inr (.inl ⟨rfl, rfl⟩)
  · rintro (⟨hw, rfl⟩ | ⟨hw, rfl⟩ | ⟨⟨i, hw, hi⟩, hc, rfl⟩)
    · exact perform_reservedOp hw s
    · exact perform_nonzeroReservedData hw s
    · exact perform_partialWord hw hi hc

/-- Settles O17: the decoder's findings, each as its condition on the op and the data; the two words of R77 are instances. -/
theorem refusesInExactlyThreeCases : Obligations.RefusesInExactlyThreeCases := by
  refine ⟨fun w s r => ?_, fun s hc => ⟨?_, ?_⟩⟩
  · rw [perform_eq_refused_iff, decode_eq_reservedOp_iff, decode_eq_nonzeroReservedData_iff,
      exists_decode_wordCommand_iff]
  · have pending : s.cnt ≠ 0#2 := by rw [hc]; decide
    rw [← hc]
    exact perform_partialWord (i := .word 0#32) rfl (.tail _ (.head _)) pending
  · exact perform_reservedOp (decode_reservedOp (by decide)) s

/-- Settles O18: there is no fault reason, and a command whose precondition holds cannot be refused, so it goes on with its one
response. -/
theorem commandsCompleteNormally : Obligations.CommandsCompleteNormally := by
  refine ⟨fun _ f => (nomatch f), fun w s i hw hpre => ?_⟩
  rw [perform_ok hw]
  cases h : exec i s with
  | next t =>
    obtain ⟨-, -, v, hv⟩ := (performs_of_exec h).port_frame
    exact ⟨t, v, rfl, hv⟩
  | fault f => nomatch f
  | refused r =>
    obtain ⟨hi, hc, -⟩ := refusal_of_exec h
    exact absurd (hpre (List.mem_pair.1 hi)) hc

end Machine

end Sys2Proof
end

section
/-! PROOFS. A refusal ends a run for good (60_exceptions.md R78): the mark is the machine's own refusal, and neither of them is
undone by further steps. -/

namespace Sys2Proof.Machine

/-- Steps of the machine add up. -/
theorem runSteps_add (m n : Nat) (s : State) : runSteps (m + n) s = andThen (runSteps m s) (runSteps n) := by
  induction m generalizing s with
  | zero => rw [Nat.zero_add]; rfl
  | succ m ih =>
    rw [Nat.succ_add, runSteps, runSteps]
    cases step s with
    | next t => exact ih t
    | fault f => nomatch f
    | refused c => rfl

/-- The mark after some steps is the reason for which that many steps of the machine are refused. -/
theorem Run.mark_advances_iff (s : State) (c : Refusal) (n : Nat) :
    (Run.advances n ⟨s, none⟩).mark = some c ↔ runSteps n s = .refused c := by
  induction n generalizing s with
  | zero => exact ⟨nofun, nofun⟩
  | succ n ih =>
    rw [Run.advances, Run.advance, runSteps]
    cases step s with
    | next t => exact ih t
    | fault f => nomatch f
    | refused d => simp [Run.advances_marked]

/-- What a run with a refusal recorded shows (R92). -/
theorem Run.observation_marked {r : Run} {c : Refusal} (h : r.mark = some c) :
    r.observation = ⟨r.state.responses, none⟩ := by
  simp [Run.observation, h]

/-- Settles O20: a marked run does not move, the mark is the refusal of `runSteps`, and `runSteps_add` passes a refusal on. -/
theorem refusalIsFinal : Obligations.RefusalIsFinal := by
  refine ⟨fun r c h n => ?_, Run.mark_advances_iff, fun s c n k h => ?_⟩
  · rw [Run.advances_marked h]
    exact ⟨h, Run.observation_marked h⟩
  · rw [runSteps_add, h, andThen]

end Sys2Proof.Machine
end

section
/-! PROOFS. What a run of command words lets the host observe (70_reset_and_hazards.md R92): the run starts with no response, so
it is the machine's run without the responses of before. -/

namespace Sys2Proof.Machine

/-- The machine's run from a state is the run started there, with the earlier responses before its own. -/
theorem runInputs_eq_afterResponses (l k : List HostInput) (s : State) :
    runInputs l s = mapNext (State.afterResponses s.responses) (runInputs l (s.startRun k)) := by
  rw [runInputs_eq_foldInputs, runInputs_eq_foldInputs, State.withInputs_eq_startRun, foldInputs_afterResponses]
  rfl

theorem eq_next_of_mapNext {f : State → State} {o : Host.Outcome State Fault Refusal} {t : State}
    (h : mapNext f o = .next t) : ∃ u, o = .next u ∧ t = f u := by
  cases o with
  | next u =>
    cases h
    exact ⟨u, rfl, rfl⟩
  | fault e => nomatch e
  | refused r => cases h

/-- Words that are all performed are the words of commands (R42). -/
theorem exists_issued_of_foldInputs {ws : List Command} {s t : State} (h : foldInputs (ws.map .command) s = .next t) :
    ∃ is : List Instr, is.length = ws.length ∧ ws.map .command = issued is := by
  induction ws generalizing s with
  | nil => exact ⟨[], rfl, rfl⟩
  | cons w ws ih =>
    rw [List.map_cons, foldInputs, takeInput] at h
    cases hw : perform w s with
    | next u =>
      rw [hw] at h
      obtain ⟨i, hi, -⟩ := exec_of_perform hw
      obtain ⟨is, hlen, his⟩ := ih h
      refine ⟨i :: is, congrArg (· + 1) hlen, ?_⟩
      rw [List.map_cons, his, ← encode_of_decode hi]
      rfl
    | fault f => nomatch f
    | refused r => simp [hw, andThen] at h

/-- Words that are all performed answer one response each (R36). -/
theorem responses_of_runInputs_command {ws : List Command} {s t : State} (h : runInputs (ws.map .command) s = .next t) :
    ∃ vs : List Word, vs.length = ws.length ∧ t.responses = s.responses ++ vs := by
  rw [runInputs_eq_foldInputs] at h
  obtain ⟨is, hlen, his⟩ := exists_issued_of_foldInputs h
  rw [his] at h
  rw [← hlen]
  exact responses_of_foldInputs_issued (s := s.withInputs []) h

/-- The run started in a state, driven over words that are all performed: it ends where the machine does, with its own
responses only, one per word, and with the later inputs still to come. -/
theorem Run.advances_start {ws : List Command} {s t : State} (h : runInputs (ws.map .command) s = .next t) :
    ∃ u : State, t = u.afterResponses s.responses ∧ u.responses.length = ws.length ∧
      ∀ rest, (Run.start (ws.map .command ++ rest) s).advances ws.length = ⟨u.withInputs rest, none⟩ := by
  rw [runInputs_eq_afterResponses _ []] at h
  obtain ⟨u, hu, ht⟩ := eq_next_of_mapNext h
  obtain ⟨vs, hlen, hvs⟩ := responses_of_runInputs_command hu
  refine ⟨u, ht, by rw [hvs]; exact hlen, fun rest => Run.advances_of_runSteps ?_⟩
  have driven := runSteps_prefix (ws.map .command) rest (s.startRun [])
  rwa [hu, List.length_map] at driven

/-- A refused word ends the run at the step that takes it (R78). -/
theorem Run.advance_of_refused {w : Command} {s : State} {c : Refusal} (h : perform w s = .refused c)
    (rest : List HostInput) :
    Run.advance ⟨s.withInputs (.command w :: rest), none⟩ = ⟨s.withInputs (.command w :: rest), some c⟩ := by
  have refused : step (s.withInputs (.command w :: rest)) = .refused c := by
    rw [step_cons (State.withInputs_inputs ..), State.withInputs_withInputs, takeInput, perform_withInputs, h, mapNext]
  simp [Run.advance, refused]

/-- The earlier responses decide no refusal (R68). -/
theorem perform_refused_of_afterResponses {w : Command} {s : State} {rs : List Word} {c : Refusal}
    (h : perform w (s.afterResponses rs) = .refused c) : perform w s = .refused c := by
  rw [perform_afterResponses] at h
  cases hw : perform w s with
  | refused d => rwa [hw] at h
  | next t | fault f => simp [hw, mapNext] at h

/-- The run started in a state and driven past a refused word. -/
theorem Run.advances_start_refused {pre post : List Command} {w : Command} {s t : State} {c : Refusal} {n : Nat}
    (h : runInputs (pre.map .command) s = .next t) (hw : perform w t = .refused c) (hn : pre.length < n) :
    ∃ u : State, t = u.afterResponses s.responses ∧ u.responses.length = pre.length ∧
      (Run.start ((pre ++ w :: post).map .command) s).advances n =
        ⟨u.withInputs ((w :: post).map .command), some c⟩ := by
  obtain ⟨u, rfl, hlen, hu⟩ := Run.advances_start h
  refine ⟨u, rfl, hlen, ?_⟩
  obtain ⟨k, rfl⟩ := Nat.exists_eq_add_of_lt hn
  have hwu : perform w u = .refused c := perform_refused_of_afterResponses hw
  rw [List.map_append, Nat.add_assoc, Run.advances_add, hu, Run.advances, List.map_cons, Run.advance_of_refused hwu,
    Run.advances_marked rfl]

/-- Settles O56: the run started in `s` is driven to the end of its words, or past the refused one, and shows its own
responses. -/
theorem runObservation : Obligations.RunObservation := by
  constructor
  · intro s ws t h
    obtain ⟨u, rfl, hlen, hu⟩ := Run.advances_start h
    have driven := hu []
    rw [List.append_nil] at driven
    rw [driven]
    exact ⟨u.responses, hlen, rfl, rfl, rfl⟩
  · intro s pre w post t c n h hw hn
    obtain ⟨u, rfl, hlen, hu⟩ := Run.advances_start_refused (post := post) h hw hn
    rw [hu]
    exact ⟨u.responses, hlen, rfl, rfl, rfl⟩

end Sys2Proof.Machine
end

section
/-! PROOFS. The inputs that issue no command (60_exceptions.md R83, 70_reset_and_hazards.md R88, 93_implementation_defined.md
U7): idling and waiting change no register, and SEED writes all of those that a loss of power leaves at any value. -/

namespace Sys2Proof.Machine

/-- Settles O21: of the two cases of a step, nothing to come leaves the first, and a wait is taken in the second. -/
theorem idleBlockHoldsItsState : Obligations.IdleBlockHoldsItsState := by
  refine ⟨fun s h => ?_, fun s rest h => step_cons h⟩
  rcases step_cases s with ⟨-, idles⟩ | ⟨x, rest, hin, -⟩
  · exact idles
  · simp [h] at hin

/-- Settles O29: the SEED after the loss of power writes every register, so the free values do not matter. -/
theorem seedRecoversFromPowerLoss : Obligations.SeedRecoversFromPowerLoss := by
  refine ⟨fun s rest h => ⟨_, step_cons h, rfl, rfl⟩, fun s => ?_⟩
  rw [runInputs_eq_foldInputs]
  exact ⟨_, foldInputs_seed [] (s.withInputs []).losePower, rfl⟩

end Sys2Proof.Machine
end

section
/-! PROOFS. The host's duties at the port (70_reset_and_hazards.md R93): the words without a reserved or ill-formed field are
those that decode, and a command that decodes is refused only as LOAD or WORD with bytes pending. A reset that cancels a
command is taken exactly where the port would perform the command (R84; assumption 4). -/

namespace Sys2Proof

variable {w : Command}

/-- Ops 0x0, 0x1, 0x5 and 0x6 take no data (R43). -/
theorem data_eq_zero_of_reservedDataZero (hop : (w >>> 32).toNat ∈ [0, 1, 5, 6]) (h : w.reservedDataZero = true) :
    w.setWidth 32 = 0#32 := by
  apply BitVec.eq_of_toNat_eq
  simp only [List.mem_cons, List.not_mem_nil, or_false] at hop
  rcases hop with hop | hop | hop | hop <;> simpa [Command.reservedDataZero, hop] using h

/-- Op 0x4 takes one byte of data (R43). -/
theorem data_high_eq_zero_of_reservedDataZero (hop : (w >>> 32).toNat = 4) (h : w.reservedDataZero = true) :
    w.setWidth 32 >>> 8 = 0#32 := by
  have low : w.toNat % 2 ^ 32 < 2 ^ 8 := by simpa [Command.reservedDataZero, hop] using h
  apply BitVec.eq_of_toNat_eq
  rw [BitVec.toNat_ushiftRight, BitVec.toNat_setWidth, Nat.shiftRight_eq_div_pow]
  exact Nat.div_eq_of_lt low

/-- The check of R43, which is written without the decoder, and the decoder agree. -/
theorem wellFormed_iff_exists_decode (w : Command) : w.wellFormed = true ↔ ∃ i, decode w = .ok i := by
  constructor
  · intro h
    obtain ⟨assigned, unused⟩ : w.opAssigned = true ∧ w.reservedDataZero = true := by
      simpa [Command.wellFormed] using h
    cases hw : decode w with
    | ok i => exact ⟨i, rfl⟩
    | error e =>
      cases e with
      | reservedOp => exact absurd (decode_eq_reservedOp_iff.1 hw) (Nat.not_le.2 (of_decide_eq_true assigned))
      | nonzeroReservedData =>
        rcases decode_eq_nonzeroReservedData_iff.1 hw with ⟨hop, hd⟩ | ⟨hop, hd⟩
        · exact absurd (data_eq_zero_of_reservedDataZero hop unused) hd
        · exact absurd (data_high_eq_zero_of_reservedDataZero hop unused) hd
  · rintro ⟨i, hw⟩
    rw [← encode_of_decode hw]
    exact wellFormed_encode i

namespace Machine

theorem commandDuty_iff (s : State) (w : Command) :
    commandDuty s w = true ↔ w.wellFormed = true ∧ ((w >>> 32).toNat ∈ [2, 3] → s.cnt = 0#2) := by
  simp [commandDuty, imp_iff_not_or]

/-- R93 for one command word at the port. -/
theorem commandDuty_iff_exists_perform (s : State) (w : Command) :
    commandDuty s w = true ↔ ∃ t, perform w s = .next t := by
  rw [commandDuty_iff, wellFormed_iff_exists_decode]
  constructor
  · rintro ⟨⟨i, hw⟩, hcnt⟩
    have boundary : i.mnemonic = .load ∨ i.mnemonic = .word → s.cnt = 0#2 := fun hi =>
      hcnt (exists_decode_wordCommand_iff.1 ⟨i, hw, List.mem_pair.2 hi⟩)
    obtain ⟨t, -, ht, -⟩ := commandsCompleteNormally.2 w s i hw boundary
    exact ⟨t, ht⟩
  · rintro ⟨t, ht⟩
    obtain ⟨i, hw, -⟩ := exec_of_perform ht
    refine ⟨⟨i, hw⟩, fun hop => ?_⟩
    obtain ⟨j, hj, hmem⟩ := exists_decode_wordCommand_iff.2 hop
    by_contra pending
    simp [perform_partialWord hj hmem pending] at ht

/-- Reset puts the registers to their reset values where the port performs the cancelled word, and nowhere else (R84;
assumption 4). -/
theorem cancelByReset_eq_next_iff {s t : State} {w : Command} :
    cancelByReset w s = .next t ↔ commandDuty s w = true ∧ t = s.seedRegs := by
  rw [commandDuty_iff_exists_perform]
  unfold cancelByReset
  cases perform w s <;> simp [eq_comm]

/-- R93 for the next input of any kind. -/
theorem hostDuty_cons_iff {s : State} {x : HostInput} {rest : List HostInput} (h : s.inputs = x :: rest) :
    hostDuty s = true ↔ ∃ t, takeInput x (s.withInputs rest) = .next t := by
  unfold hostDuty
  rw [h]
  cases x with
  | command w => exact commandDuty_iff_exists_perform (s.withInputs rest) w
  | cancelled w =>
    exact ⟨fun duty => ⟨_, cancelByReset_eq_next_iff.2 ⟨duty, rfl⟩⟩, fun ⟨_, ht⟩ => (cancelByReset_eq_next_iff.1 ht).1⟩
  | wait | reset | powerLoss => exact iff_of_true rfl ⟨_, rfl⟩

/-- Settles O19: an idle block carries no duty and goes on, and the duty at an input is what lets that input be taken. -/
theorem dutyIsWhatAvoidsRefusal : Obligations.DutyIsWhatAvoidsRefusal := by
  intro s
  rcases step_cases s with ⟨hin, idles⟩ | ⟨x, rest, hin, taken⟩
  · exact iff_of_true (by rw [hostDuty, hin]) ⟨s, idles⟩
  · rw [taken]
    exact hostDuty_cons_iff hin

/-- Settles O27: the input is taken from the state that has the others still to come, and a cancelled command that meets its
duty there leaves what a reset does. -/
theorem resetFromAnyState : Obligations.ResetFromAnyState := by
  refine ⟨fun s rest h => step_cons h, fun s w rest h duty => ?_⟩
  rw [step_cons h]
  exact cancelByReset_eq_next_iff.2 ⟨duty, rfl⟩

end Machine

end Sys2Proof
end

section
/-! PROOFS. What changes no result of a run: the waits in it (70_reset_and_hazards.md R88), and a SEED in the place of a reset
(R85). -/

namespace Sys2Proof.Machine

theorem foldInputs_filter_wait (l : List HostInput) (s : State) :
    foldInputs (l.filter (fun x => decide (x ≠ .wait))) s = foldInputs l s := by
  induction l generalizing s with
  | nil => rfl
  | cons x l ih =>
    by_cases hx : x = .wait
    · subst hx
      exact ih s
    · rw [List.filter_cons, if_pos (decide_eq_true hx), foldInputs, foldInputs, funext ih]

/-- Settles O22: a run is the fold of its inputs, and a wait is its neutral element. -/
theorem waitingChangesNoResult : Obligations.WaitingChangesNoResult := by
  intro s l _
  rw [runInputs_eq_foldInputs, runInputs_eq_foldInputs, foldInputs_filter_wait]

/-- A reset at the head of the inputs (R84). -/
theorem foldInputs_reset (l : List HostInput) (s : State) :
    foldInputs (.reset :: l) s = foldInputs l s.seedRegs := rfl

/-- Settles O28: a SEED leaves the state of a reset with one response more, which decides nothing of what follows. -/
theorem seedActsAsReset : Obligations.SeedActsAsReset := by
  intro s l _
  rw [runInputs_eq_foldInputs, runInputs_eq_foldInputs, foldInputs_reset, foldInputs_seed]
  exact sameRegs_foldInputs_respond l (s.withInputs []).seedRegs seed

end Sys2Proof.Machine
end

section
/-! PROOFS. The encoding examples of 30_encoding.md, as instances of what the decoder is proved to do for every word. -/

namespace Sys2Proof

/-- Settles O1: the first seven words are the encodings of their commands, which decode to those commands, and the last is a
word of BYTE (op 4) with a data bit above its byte. -/
theorem decodesWrittenWords : Obligations.DecodesWrittenWords :=
  ⟨decode_encode .read, decode_encode .seed, decode_encode (.load 0xFFFFFFFF#32), decode_encode (.word 0x12341234#32),
    decode_encode (.byte 0x5C#8), decode_encode .finish, decode_encode .stat,
    decode_eq_nonzeroReservedData_iff.2 (.inr (by decide))⟩

end Sys2Proof
end
